-- ==== Sys2Proof/Word.lean ====
section
/-! DEFINITION. The 16-bit word, the 6-bit operand descriptor and truncation to a word (spec/10_state.md R21,
spec/00_scope.md R8, R11). -/

namespace Sys2Proof

/-- The machine word: every register and every memory word is 16 bits, unsigned (R8). -/
abbrev Word := BitVec 16

/-- An operand descriptor: the 6-bit `a` or `b` field of an instruction word (R71, R17). -/
abbrev Descriptor := BitVec 6

/-- `trunc16(v)` of R11 for a non-negative integer: `v mod 2^16`. -/
def trunc16 (v : Nat) : Word := BitVec.ofNat 16 v

/-- `trunc16(v)` of R11 for an integer that may be negative (SUB's difference, R140): `v mod 2^16`, in 0..0xFFFF. -/
def truncInt16 (v : Int) : Word := BitVec.ofInt 16 v

end Sys2Proof
end

