-- ==== Sys2Proof/Config.lean ====
section
/-! DEFINITION. What an implementation of the core fixes, and the one value the spec leaves open
(spec/00_scope.md R8, R9; spec/40_cycle_and_operands.md R126). -/

namespace Sys2Proof

/-- The number of words of memory (R8, R31): addresses 0x0000 to 0xFFFF. -/
def Config.memoryWords : Nat := 65536

/-- What a memory word reads as when nothing has been loaded or stored there: memory is zero-initialised (R250). -/
def Config.unlistedWord : Word := 0

/-- The two values of the parameter `P_O_DEST_ORDER` (R126): which of the two writes to O survives when an operation that
writes both its destination and O has O as its destination. -/
inductive ODestOrder where
  /-- `DestThenO`: the overflow value is written last and survives. -/
  | destThenO
  /-- `OThenDest`: the result is written last and survives. -/
  | oThenDest
deriving DecidableEq, Repr, Inhabited

/-- `P_O_DEST_ORDER` of this machine. DESIGN CHOICE (log entry 2): a constant without a body, so that nothing can be proved of
its value and a claim that rests on it holds for both; safe. R126 and decision D5 leave it open. -/
opaque Config.oDestOrder : ODestOrder

end Sys2Proof
end

