-- ==== Sys2Proof/Syntax.lean ====
section
/-! DEFINITION. The instruction set as syntax: general registers, operand modes, and one constructor per row of
spec/opcode_table.json (spec/30_encoding.md R70 to R79). -/

namespace Sys2Proof

/-- The eight general registers by name, in the order of their indices 0..7 (R22). -/
inductive Reg where
  | a | b | c | x | y | z | i | j
deriving DecidableEq, Repr

/-- An operand: the addressing mode that a 6-bit descriptor selects (the table of R74). The next word of a mode that uses one
is not part of the descriptor: it stands in memory after the instruction word and is read at PC when the operand is resolved
(R104, R119; log entry 14). -/
inductive Operand where
  /-- 0x00..0x07: the register itself (R105). -/
  | reg (r : Reg)
  /-- 0x08..0x0F: memory at [register] (R106). -/
  | regMem (r : Reg)
  /-- 0x10..0x17: memory at [register + next word] (R107). -/
  | regNextMem (r : Reg)
  /-- 0x18: memory at [SP], then SP incremented (R108). -/
  | pop
  /-- 0x19: memory at [SP] (R109). -/
  | peek
  /-- 0x1A: SP decremented, then memory at [SP] (R110). -/
  | push
  /-- 0x1B: the SP register itself (R111). -/
  | sp
  /-- 0x1C: the PC register itself (R112). -/
  | pc
  /-- 0x1D: the O register itself (R113). -/
  | o
  /-- 0x1E: memory at [next word] (R114). -/
  | nextMem
  /-- 0x1F: the next word as a non-writable literal (R115). -/
  | nextLit
  /-- 0x20..0x3F: a small non-writable literal, 0..31 (R116); `Operand.wellFormed` holds the range. -/
  | smallLit (v : Word)
deriving DecidableEq, Repr

/-- The instructions: fifteen basic ones, `a` the destination and `b` the source (R71, R78), and the one extended
instruction, whose single operand is `b` (R72, R79). -/
inductive Instr where
  | set (a b : Operand)
  | add (a b : Operand)
  | sub (a b : Operand)
  | mul (a b : Operand)
  | div (a b : Operand)
  | mod (a b : Operand)
  | shl (a b : Operand)
  | shr (a b : Operand)
  | and (a b : Operand)
  | or (a b : Operand)
  | xor (a b : Operand)
  | ife (a b : Operand)
  | ifn (a b : Operand)
  | ifg (a b : Operand)
  | ifb (a b : Operand)
  | jsr (b : Operand)
deriving DecidableEq, Repr

end Sys2Proof
end

