-- ==== Sys2Proof/WellFormed.lean ====
section
/-! DEFINITION. Which terms of the syntax an instruction word can encode: every operand mode is legal in every position
(spec/30_encoding.md R81), and a small literal is in 0..31 (spec/40_cycle_and_operands.md R116). -/

namespace Sys2Proof

/-- A small literal fits the five bits of its descriptor (R75, R116); every other mode is encodable as it is. -/
def Operand.wellFormed : Operand → Bool
  | .smallLit v => decide (v.toNat < 32)
  | .reg _ => true
  | .regMem _ => true
  | .regNextMem _ => true
  | .pop => true
  | .peek => true
  | .push => true
  | .sp => true
  | .pc => true
  | .o => true
  | .nextMem => true
  | .nextLit => true

/-- An instruction is well-formed when its operands are: no pair of modes is excluded (R81). -/
def Instr.wellFormed : Instr → Bool
  | .set a b => a.wellFormed && b.wellFormed
  | .add a b => a.wellFormed && b.wellFormed
  | .sub a b => a.wellFormed && b.wellFormed
  | .mul a b => a.wellFormed && b.wellFormed
  | .div a b => a.wellFormed && b.wellFormed
  | .mod a b => a.wellFormed && b.wellFormed
  | .shl a b => a.wellFormed && b.wellFormed
  | .shr a b => a.wellFormed && b.wellFormed
  | .and a b => a.wellFormed && b.wellFormed
  | .or a b => a.wellFormed && b.wellFormed
  | .xor a b => a.wellFormed && b.wellFormed
  | .ife a b => a.wellFormed && b.wellFormed
  | .ifn a b => a.wellFormed && b.wellFormed
  | .ifg a b => a.wellFormed && b.wellFormed
  | .ifb a b => a.wellFormed && b.wellFormed
  | .jsr b => b.wellFormed

end Sys2Proof
end

