-- ==== Sys2Proof/Decode.lean ====
section
/-! DEFINITION. The decoder (spec/30_encoding.md R71 to R81, spec/40_cycle_and_operands.md R119) and, after it, the encoder,
written from the same tables. Decoding reads one instruction word and nothing else; it answers an instruction or the name of
the step error. -/

namespace Sys2Proof

/-- Why a word is no instruction: the two step errors of R220, as the decoder finds them. -/
inductive DecodeError where
  /-- An extended opcode with no table entry (R221). -/
  | unrecognizedExtendedOpcode (ext : BitVec 6)
  /-- A descriptor with no row in the mode table; unreachable, since the table covers all 64 (R117, R222). -/
  | invalidAddressingMode (d : Descriptor)
deriving DecidableEq, Repr

/-- `op = w[3:0]` (R71). -/
def opField (w : Word) : BitVec 4 := w.extractLsb' 0 4

/-- `a = w[9:4]`, which is `ext` in the extended format (R71, R72). -/
def aField (w : Word) : Descriptor := w.extractLsb' 4 6

/-- `b = w[15:10]` (R71, R72). -/
def bField (w : Word) : Descriptor := w.extractLsb' 10 6

/-- The register with a given index (R22). -/
def Reg.ofIndex (n : BitVec 3) : Reg :=
  match n.toNat with
  | 0 => .a
  | 1 => .b
  | 2 => .c
  | 3 => .x
  | 4 => .y
  | 5 => .z
  | 6 => .i
  | _ => .j

/-- The index of a register (R22). -/
def Reg.index : Reg → BitVec 3
  | .a => 0
  | .b => 1
  | .c => 2
  | .x => 3
  | .y => 4
  | .z => 5
  | .i => 6
  | .j => 7

/-- One row of the mode table of R74: the descriptors `first..last` and the mode they select. -/
structure ModeRow where
  first : Nat
  last : Nat
  mode : Descriptor → Operand

/-- The row covers the descriptor. -/
def ModeRow.covers (row : ModeRow) (d : Descriptor) : Bool :=
  decide (row.first ≤ d.toNat) && decide (d.toNat ≤ row.last)

/-- The register a descriptor names, `base` being the first descriptor of its row (R105 to R107: index `d`, `d − 8`,
`d − 16`). -/
def registerFrom (base : Nat) (d : Descriptor) : Reg := Reg.ofIndex (BitVec.ofNat 3 (d.toNat - base))

/-- The mode table of R74, row by row. -/
def modeTable : List ModeRow :=
  [ ⟨0x00, 0x07, fun d => .reg (registerFrom 0x00 d)⟩,
    ⟨0x08, 0x0F, fun d => .regMem (registerFrom 0x08 d)⟩,
    ⟨0x10, 0x17, fun d => .regNextMem (registerFrom 0x10 d)⟩,
    ⟨0x18, 0x18, fun _ => .pop⟩,
    ⟨0x19, 0x19, fun _ => .peek⟩,
    ⟨0x1A, 0x1A, fun _ => .push⟩,
    ⟨0x1B, 0x1B, fun _ => .sp⟩,
    ⟨0x1C, 0x1C, fun _ => .pc⟩,
    ⟨0x1D, 0x1D, fun _ => .o⟩,
    ⟨0x1E, 0x1E, fun _ => .nextMem⟩,
    ⟨0x1F, 0x1F, fun _ => .nextLit⟩,
    ⟨0x20, 0x3F, fun d => .smallLit (trunc16 (d.toNat - 0x20))⟩ ]

/-- The mode of a descriptor; one that no row covered would fail by name, never default to a neighbour (R222). -/
def decodeOperand (d : Descriptor) : Except DecodeError Operand :=
  match modeTable.find? (fun row => row.covers d) with
  | some row => .ok (row.mode d)
  | none => .error (.invalidAddressingMode d)

/-- The basic opcode table of R78. SET's value is the source's; the others are the spec's decision D1 (log entry 4). The value
0x0 has no row: it is the extended escape. -/
def basicTable : List (BitVec 4 × (Operand → Operand → Instr)) :=
  [ (0x1, .set), (0x2, .add), (0x3, .sub), (0x4, .mul), (0x5, .div), (0x6, .mod), (0x7, .shl), (0x8, .shr),
    (0x9, .and), (0xA, .or), (0xB, .xor), (0xC, .ife), (0xD, .ifn), (0xE, .ifg), (0xF, .ifb) ]

/-- The extended opcode table of R79 and R202: a finite map with one entry, JSR at 0x01 (decision D2, log entry 4). -/
def extendedTable : List (BitVec 6 × (Operand → Instr)) :=
  [ (0x01, .jsr) ]

/-- A basic word: both descriptors, each through the mode table (R71, R119). -/
def decodeBasic (mk : Operand → Operand → Instr) (w : Word) : Except DecodeError Instr :=
  match decodeOperand (aField w) with
  | .error e => .error e
  | .ok a =>
    match decodeOperand (bField w) with
    | .error e => .error e
    | .ok b => .ok (mk a b)

/-- An extended word: the table is consulted before the operand, so an unassigned `ext` is reported first (R123, R225). -/
def decodeExtended (w : Word) : Except DecodeError Instr :=
  match extendedTable.lookup (aField w) with
  | none => .error (.unrecognizedExtendedOpcode (aField w))
  | some mk =>
    match decodeOperand (bField w) with
    | .error e => .error e
    | .ok b => .ok (mk b)

/-- Decoding one instruction word (R73, R119, R132): a value of `op` with a row in the basic table is basic, 0x0 is
extended. -/
def decode (w : Word) : Except DecodeError Instr :=
  match basicTable.lookup (opField w) with
  | some mk => decodeBasic mk w
  | none => decodeExtended w

/-- The instruction the decoder reads from a table row's word: the machine's first word is bits 15..0 of `w`, and decoding
reads that word alone (R119; next words carry no format information, R77). -/
def decodeTableWord (nbits w : Nat) : Option Instr :=
  match decode (trunc16 (w % 2 ^ nbits)) with
  | .ok i => some i
  | .error _ => none

/-- The descriptor of an operand (R74). -/
def encodeOperand : Operand → Descriptor
  | .reg r => 0x00 + r.index.setWidth 6
  | .regMem r => 0x08 + r.index.setWidth 6
  | .regNextMem r => 0x10 + r.index.setWidth 6
  | .pop => 0x18
  | .peek => 0x19
  | .push => 0x1A
  | .sp => 0x1B
  | .pc => 0x1C
  | .o => 0x1D
  | .nextMem => 0x1E
  | .nextLit => 0x1F
  | .smallLit v => 0x20 + v.setWidth 6

/-- `(b << 10) | (a << 4) | op` (R71); the extended word is the same with `ext` for `a` and 0x0 for `op` (R72). -/
def instructionWord (op : BitVec 4) (a b : Descriptor) : Word :=
  b.setWidth 16 <<< 10 ||| a.setWidth 16 <<< 4 ||| op.setWidth 16

/-- The instruction word of an instruction (R71, R72, R78, R79). The next words its operands use follow it in memory and are
no part of the instruction (R104; log entry 14). -/
def encode : Instr → Word
  | .set a b => instructionWord 0x1 (encodeOperand a) (encodeOperand b)
  | .add a b => instructionWord 0x2 (encodeOperand a) (encodeOperand b)
  | .sub a b => instructionWord 0x3 (encodeOperand a) (encodeOperand b)
  | .mul a b => instructionWord 0x4 (encodeOperand a) (encodeOperand b)
  | .div a b => instructionWord 0x5 (encodeOperand a) (encodeOperand b)
  | .mod a b => instructionWord 0x6 (encodeOperand a) (encodeOperand b)
  | .shl a b => instructionWord 0x7 (encodeOperand a) (encodeOperand b)
  | .shr a b => instructionWord 0x8 (encodeOperand a) (encodeOperand b)
  | .and a b => instructionWord 0x9 (encodeOperand a) (encodeOperand b)
  | .or a b => instructionWord 0xA (encodeOperand a) (encodeOperand b)
  | .xor a b => instructionWord 0xB (encodeOperand a) (encodeOperand b)
  | .ife a b => instructionWord 0xC (encodeOperand a) (encodeOperand b)
  | .ifn a b => instructionWord 0xD (encodeOperand a) (encodeOperand b)
  | .ifg a b => instructionWord 0xE (encodeOperand a) (encodeOperand b)
  | .ifb a b => instructionWord 0xF (encodeOperand a) (encodeOperand b)
  | .jsr b => instructionWord 0x0 0x01 (encodeOperand b)

end Sys2Proof
end

