-- ==== Sys2Proof/Machine/State.lean ====
section
/-! DEFINITION. The machine state as plain data (spec/10_state.md R20: "exactly these components and nothing else"), the
reasons a step can stop (spec/60_exceptions.md R220), and the state after reset (spec/70_reset_and_hazards.md R250). -/

namespace Sys2Proof.Machine

/-- The step errors of R220. A step error ends the run, so a fault carries the recorded information and no state; what the
host may find in the machine afterwards is the relation `stateAfterError` (R223; log entry 9). -/
inductive Fault where
  /-- Raised by the extended step for a word whose `ext` has no table entry, skipped or not (R221); carries `ext`, the word
  and the address it was fetched at. Safe: the spec gives the error, and where the block might skip the word instead (decision
  D9, log entry 8) the model stops. -/
  | unrecognizedExtendedOpcode (ext : BitVec 6) (w addr : Word)
  /-- Raised for a descriptor outside the mode table (R222). No word reaches it, since the table covers all 64 descriptors
  (R117); kept as a hard failure, as the spec asks. Safe. -/
  | invalidAddressingMode (d : Descriptor)
deriving DecidableEq, Repr

/-- The refusals. -/
inductive Refusal where
  /-- An instruction without a meaning yet; raised by an arm of `exec` only. Safe. No arm raises it. -/
  | notModelled (mnemonic : String)
  /-- An image of more than 65536 words is refused when it is loaded (R254, decision D20; log entry 12). Raised by `State.load`
  only, never by a step. Safe. -/
  | imageTooLong (words : Nat)
deriving DecidableEq, Repr

/-- The eight general registers (R22). -/
structure Regs where
  a : Word
  b : Word
  c : Word
  x : Word
  y : Word
  z : Word
  i : Word
  j : Word
deriving DecidableEq, Repr

/-- Memory: a list of (word address, word) pairs in one canonical form (`Memory.wf`): addresses strictly rising, below 65536,
and no entry equal to what an unlisted address reads as. The cell is the word, not the byte: the core has "no bytes" and "no
byte address" (R31, R51; log entry 1). -/
abbrev Memory := List (Nat × Word)

/-- The complete machine state (R20). -/
structure State where
  /-- A B C X Y Z I J (R22). -/
  regs : Regs
  /-- The program counter: the address of the next word to fetch (R24). -/
  pc : Word
  /-- The stack pointer (R27). -/
  sp : Word
  /-- The overflow register (R28). -/
  o : Word
  /-- The skip flag: true is `skipping`, false is `armed` (R29). -/
  skip : Bool
  /-- The 65536 words of memory (R31). -/
  mem : Memory
deriving DecidableEq, Repr

/-- The state after reset, that is after construction with an empty image: everything zero, the skip flag armed (R250). -/
def State.reset : State where
  regs := { a := 0, b := 0, c := 0, x := 0, y := 0, z := 0, i := 0, j := 0 }
  pc := 0
  sp := 0
  o := 0
  skip := false
  mem := []

end Sys2Proof.Machine
end

