-- ==== Sys2Proof/Machine/Ops.lean ====
section
/-! DEFINITION. The named operations over registers and memory (spec/10_state.md, spec/20_memory.md), the next-word read
(spec/40_cycle_and_operands.md R104), the stack push of spec/44_extended.md R201, and raising a step error
(spec/60_exceptions.md R220): the one thing this core has in the place of taking an exception. There is no return from one
(R227). -/

namespace Sys2Proof.Machine

/-- Read general register `r` (R11: `x[i]`). -/
def Regs.get (rs : Regs) : Reg → Word
  | .a => rs.a
  | .b => rs.b
  | .c => rs.c
  | .x => rs.x
  | .y => rs.y
  | .z => rs.z
  | .i => rs.i
  | .j => rs.j

/-- Write general register `r` (R11: `x[i] <- v`). No register is hard-wired (R22). -/
def Regs.set (rs : Regs) (r : Reg) (v : Word) : Regs :=
  match r with
  | .a => { rs with a := v }
  | .b => { rs with b := v }
  | .c => { rs with c := v }
  | .x => { rs with x := v }
  | .y => { rs with y := v }
  | .z => { rs with z := v }
  | .i => { rs with i := v }
  | .j => { rs with j := v }

/-- The word at an address: its entry, else what an unlisted address reads as (R250). -/
def Memory.read : Memory → Nat → Word
  | [], _ => Config.unlistedWord
  | (k, v) :: m, addr => if k = addr then v else Memory.read m addr

/-- Memory without an entry for the address. -/
def Memory.dropCell (m : Memory) (addr : Nat) : Memory := m.filter (fun cell => decide (cell.1 ≠ addr))

/-- Put an entry in its place by address; the address has no entry yet. -/
def Memory.insertCell : Memory → Nat → Word → Memory
  | [], addr, v => [(addr, v)]
  | (k, x) :: m, addr, v => if addr < k then (addr, v) :: (k, x) :: m else (k, x) :: Memory.insertCell m addr v

/-- Write one word (R55, R57), keeping the canonical form: writing the value an unlisted address reads as removes the
entry. -/
def Memory.write (m : Memory) (addr : Nat) (v : Word) : Memory :=
  if v = Config.unlistedWord then m.dropCell addr else (m.dropCell addr).insertCell addr v

/-- The canonical form: addresses strictly rising and inside the address space (R31), no entry holding the unlisted value. -/
abbrev Memory.wf (m : Memory) : Prop :=
  m.Pairwise (fun p q => p.1 < q.1) ∧ ∀ cell ∈ m, cell.1 < Config.memoryWords ∧ cell.2 ≠ Config.unlistedWord

/-- Read a general register. -/
def State.getReg (s : State) (r : Reg) : Word := s.regs.get r

/-- Write a general register. -/
def State.setReg (s : State) (r : Reg) (v : Word) : State := { s with regs := s.regs.set r v }

/-- Write PC (R24). -/
def State.setPc (s : State) (v : Word) : State := { s with pc := v }

/-- Write SP (R27). -/
def State.setSp (s : State) (v : Word) : State := { s with sp := v }

/-- Write O (R28). -/
def State.setO (s : State) (v : Word) : State := { s with o := v }

/-- Write the skip flag (R29). -/
def State.setSkip (s : State) (v : Bool) : State := { s with skip := v }

/-- `MemRead(addr, 1)` (R11, R55). Every 16-bit value is an address and no access can fault (R53, R59). -/
def State.readMem (s : State) (addr : Word) : Word := s.mem.read addr.toNat

/-- `MemWrite(addr, 1, v)` (R11, R55). -/
def State.writeMem (s : State) (addr v : Word) : State := { s with mem := s.mem.write addr.toNat v }

/-- Read the word at PC and advance PC by one, wrapping (R104 `NextWord`, R25); the fetch of an instruction word is the same
operation (R118). -/
def State.nextWord (s : State) : Word × State := (s.readMem s.pc, s.setPc (s.pc + 1))

/-- SP post-increment, wrapping (R27, R108). -/
def State.incSp (s : State) : State := s.setSp (s.sp + 1)

/-- SP pre-decrement, wrapping (R27, R110, R201). -/
def State.decSp (s : State) : State := s.setSp (s.sp - 1)

/-- JSR's push (R201): decrement SP, then store at the new SP. -/
def State.pushWord (s : State) (v : Word) : State := s.decSp.writeMem s.decSp.sp v

/-- Raising a step error (R220): the error and what it records, the word and the address it was fetched at. Nothing is saved,
vectored or masked (R226); the run ends (R223). -/
def raiseStepError (e : DecodeError) (w addr : Word) : Fault :=
  match e with
  | .unrecognizedExtendedOpcode ext => .unrecognizedExtendedOpcode ext w addr
  | .invalidAddressingMode d => .invalidAddressingMode d

end Sys2Proof.Machine
end

