-- ==== Sys2Proof/Machine/Operands.lean ====
section
/-! DEFINITION. Operand locations and the mode dispatcher: what every descriptor mode resolves to and which addressing side
effects it has (spec/40_cycle_and_operands.md R101 to R117). -/

namespace Sys2Proof.Machine

/-- What a descriptor resolves to (R101). A memory location's address is fixed when it is resolved. -/
inductive Loc where
  | reg (r : Reg)
  | mem (addr : Word)
  | sp
  | pc
  | o
  /-- A non-writable literal. -/
  | lit (v : Word)
deriving DecidableEq, Repr

/-- Reading a location (R102); it has no side effect. -/
def State.readLoc (s : State) : Loc → Word
  | .reg r => s.getReg r
  | .mem addr => s.readMem addr
  | .sp => s.sp
  | .pc => s.pc
  | .o => s.o
  | .lit v => v

/-- Writing a location (R103); a write to a literal is silently discarded. -/
def State.writeLoc (s : State) (loc : Loc) (v : Word) : State :=
  match loc with
  | .reg r => s.setReg r v
  | .mem addr => s.writeMem addr v
  | .sp => s.setSp v
  | .pc => s.setPc v
  | .o => s.setO v
  | .lit _ => s

/-- Resolving an operand (R105 to R116): its location, and the state with its addressing side effects on PC and SP made.
The sum of R107 wraps modulo 2^16 (R54, decision D6; log entry 6). -/
def State.resolve (s : State) (operand : Operand) : Loc × State :=
  match operand with
  | .reg r => (.reg r, s)
  | .regMem r => (.mem (s.getReg r), s)
  | .regNextMem r => (.mem (s.getReg r + s.nextWord.1), s.nextWord.2)
  | .pop => (.mem s.sp, s.incSp)
  | .peek => (.mem s.sp, s)
  | .push => (.mem s.decSp.sp, s.decSp)
  | .sp => (.sp, s)
  | .pc => (.pc, s)
  | .o => (.o, s)
  | .nextMem => (.mem s.nextWord.1, s.nextWord.2)
  | .nextLit => (.lit s.nextWord.1, s.nextWord.2)
  | .smallLit v => (.lit v, s)

/-- How many next words an operand uses (R76: `uses(d)`), so how far its resolution moves PC. -/
def nextWords : Operand → Word
  | .regNextMem _ => 1
  | .nextMem => 1
  | .nextLit => 1
  | .reg _ => 0
  | .regMem _ => 0
  | .pop => 0
  | .peek => 0
  | .push => 0
  | .sp => 0
  | .pc => 0
  | .o => 0
  | .smallLit _ => 0

/-- How far an operand's resolution moves SP (R108, R110): up by one for POP, down by one for PUSH. -/
def stackMove : Operand → Word
  | .pop => 1
  | .push => -1
  | .reg _ => 0
  | .regMem _ => 0
  | .regNextMem _ => 0
  | .peek => 0
  | .sp => 0
  | .pc => 0
  | .o => 0
  | .nextMem => 0
  | .nextLit => 0
  | .smallLit _ => 0

end Sys2Proof.Machine
end

