-- ==== Sys2Proof/Machine/Flags.lean ====
section
/-! DEFINITION. The ALU: the result and the overflow value of every operation, the four conditions, and how a result and an
overflow value are written (spec/41_move_arith.md, spec/42_shift_logic.md, spec/43_conditional.md,
spec/40_cycle_and_operands.md R126). Arithmetic is exact on the operands' unsigned values and is truncated once, at the end
(R140, decision D8; log entry 7). O is the only flag-like register (R28). -/

namespace Sys2Proof.Machine

/-- What an operation that writes O computes: the result for its destination and the overflow value for O. -/
structure AluOut where
  result : Word
  overflow : Word
deriving DecidableEq, Repr

/-- SET (R141): the source, and 0. -/
def aluSet (_va vb : Word) : AluOut := { result := vb, overflow := 0 }

/-- ADD (R142): the sum, and the carry. -/
def aluAdd (va vb : Word) : AluOut where
  result := trunc16 (va.toNat + vb.toNat)
  overflow := if va.toNat + vb.toNat ≥ 2 ^ 16 then 1 else 0

/-- SUB (R143): the difference, and 0xFFFF on a borrow. -/
def aluSub (va vb : Word) : AluOut where
  result := truncInt16 ((va.toNat : Int) - (vb.toNat : Int))
  overflow := if (va.toNat : Int) - (vb.toNat : Int) < 0 then 0xFFFF else 0

/-- MUL (R144): the low and the high word of the 32-bit product. -/
def aluMul (va vb : Word) : AluOut where
  result := trunc16 (va.toNat * vb.toNat)
  overflow := trunc16 ((va.toNat * vb.toNat) >>> 16)

/-- DIV (R145): the quotient, and the 16 bits below its binary point; both 0 for a zero divisor. -/
def aluDiv (va vb : Word) : AluOut :=
  if vb = 0 then { result := 0, overflow := 0 }
  else { result := trunc16 (va.toNat / vb.toNat), overflow := trunc16 ((va.toNat <<< 16) / vb.toNat) }

/-- MOD (R146): the remainder, 0 for a zero divisor; O is 0 in every case. -/
def aluMod (va vb : Word) : AluOut :=
  if vb = 0 then { result := 0, overflow := 0 }
  else { result := trunc16 (va.toNat % vb.toNat), overflow := 0 }

/-- SHL (R161): the shifted value, and the bits shifted out of the top. The count is the whole source value, not masked
(R160, decision D7; log entry 7). -/
def aluShl (va vb : Word) : AluOut where
  result := trunc16 (va.toNat <<< vb.toNat)
  overflow := trunc16 ((va.toNat <<< vb.toNat) >>> 16)

/-- SHR (R162): the logically shifted value, and the bits shifted out of the bottom, left-aligned. The count is not masked
(R160). -/
def aluShr (va vb : Word) : AluOut where
  result := trunc16 (va.toNat >>> vb.toNat)
  overflow := trunc16 ((va.toNat <<< 16) >>> vb.toNat)

/-- AND (R163, R166). -/
def aluAnd (va vb : Word) : Word := va &&& vb

/-- OR (R164, R166). -/
def aluOr (va vb : Word) : Word := va ||| vb

/-- XOR (R165, R166). -/
def aluXor (va vb : Word) : Word := va ^^^ vb

/-- IFE's condition (R182; the four conditions are decision D3, log entry 5). -/
def condEqual (va vb : Word) : Bool := decide (va = vb)

/-- IFN's condition (R183). -/
def condNotEqual (va vb : Word) : Bool := decide (va ≠ vb)

/-- IFG's condition, unsigned (R184). -/
def condGreater (va vb : Word) : Bool := decide (va.toNat > vb.toNat)

/-- IFB's condition: some bit is set in both (R185). -/
def condAnyBit (va vb : Word) : Bool := decide (va &&& vb ≠ 0)

/-- The value O is left with when the destination is O itself: the survivor of the two writes, by `P_O_DEST_ORDER` (R126). -/
def survivingO (order : ODestOrder) (out : AluOut) : Word :=
  match order with
  | .destThenO => out.overflow
  | .oThenDest => out.result

/-- `write(la, r)` together with `O <- ov`, in the order of R126. Only with O as destination do the two writes touch the same
state, so only there does the order show. -/
def State.writeResult (s : State) (order : ODestOrder) (la : Loc) (out : AluOut) : State :=
  if la = .o then s.setO (survivingO order out) else (s.writeLoc la out.result).setO out.overflow

end Sys2Proof.Machine
end

