-- ==== Sys2Proof/Machine/Cycle.lean ====
section
/-! DEFINITION. The step common to all instructions after fetch and decode: resolve `a`, read and clear SKIP, resolve `b`, read
the source, then apply the operation, or nothing when skipping (spec/40_cycle_and_operands.md R120 to R125). A state given to
these functions is the state after the fetch: PC already points past the instruction word (log entry 19). -/

namespace Sys2Proof.Machine

/-- A basic instruction after its operands are resolved (R122): the destination and source locations, whether the step started
with SKIP set, and the state with all addressing side effects made and SKIP cleared. -/
structure Resolved where
  dest : Loc
  source : Loc
  skipping : Bool
  after : State
deriving DecidableEq, Repr

/-- Phases 1 and 2 of a basic step (R120, R121, R122): `a` first, then the skip decision, then `b`. -/
def resolveBoth (a b : Operand) (s : State) : Resolved :=
  let resolvedA := s.resolve a
  let resolvedB := (resolvedA.2.setSkip false).resolve b
  { dest := resolvedA.1, source := resolvedB.1, skipping := resolvedA.2.skip, after := resolvedB.2 }

/-- `vb`: the source's value, read after `b` is resolved (R130). -/
def Resolved.sourceValue (r : Resolved) : Word := r.after.readLoc r.source

/-- `va`: the destination's value, read in phase 3, after `b`'s side effects (R125, decision D4; log entry 3). -/
def Resolved.destValue (r : Resolved) : Word := r.after.readLoc r.dest

/-- An extended instruction after its operand is resolved (R123). -/
structure ResolvedOne where
  source : Loc
  skipping : Bool
  after : State
deriving DecidableEq, Repr

/-- The skip decision, then the single operand (R121, R123). -/
def resolveOne (b : Operand) (s : State) : ResolvedOne :=
  let resolvedB := (s.setSkip false).resolve b
  { source := resolvedB.1, skipping := s.skip, after := resolvedB.2 }

/-- `vb` of an extended instruction (R123). -/
def ResolvedOne.value (r : ResolvedOne) : Word := r.after.readLoc r.source

/-- The basic step (R122): a skipped instruction keeps its addressing side effects and does nothing else (R124); otherwise the
operation runs on the destination location and the two values. -/
def basicStep (a b : Operand) (operation : Loc → Word → Word → State → State) (s : State) :
    Host.Outcome State Fault Refusal :=
  let r := resolveBoth a b s
  if r.skipping then .next r.after else .next (operation r.dest r.destValue r.sourceValue r.after)

/-- A basic step whose operation writes its destination and O (R122, R126). -/
def resultStep (alu : Word → Word → AluOut) (a b : Operand) (s : State) : Host.Outcome State Fault Refusal :=
  basicStep a b (fun la va vb t => t.writeResult Config.oDestOrder la (alu va vb)) s

/-- A basic step whose operation writes its destination and leaves O unchanged (R122). -/
def logicStep (alu : Word → Word → Word) (a b : Operand) (s : State) : Host.Outcome State Fault Refusal :=
  basicStep a b (fun la va vb t => t.writeLoc la (alu va vb)) s

/-- A basic step whose operation writes SKIP only: `SKIP <- not cond(va, vb)` (R181). -/
def conditionalStep (cond : Word → Word → Bool) (a b : Operand) (s : State) : Host.Outcome State Fault Refusal :=
  basicStep a b (fun _ va vb t => t.setSkip (!cond va vb)) s

/-- The extended step (R123): the operation receives the operand's value only. -/
def extendedStep (b : Operand) (operation : Word → State → State) (s : State) : Host.Outcome State Fault Refusal :=
  let r := resolveOne b s
  if r.skipping then .next r.after else .next (operation r.value r.after)

end Sys2Proof.Machine
end

