-- ==== Sys2Proof/Machine/Arith.lean ====
section
/-! DEFINITION. The move and arithmetic family (spec/41_move_arith.md). -/

namespace Sys2Proof.Machine

/-- SET a, b: copy; O becomes 0 (R141). -/
def execSet (a b : Operand) (s : State) : Host.Outcome State Fault Refusal := resultStep aluSet a b s

/-- ADD a, b: add, with the carry to O (R142). -/
def execAdd (a b : Operand) (s : State) : Host.Outcome State Fault Refusal := resultStep aluAdd a b s

/-- SUB a, b: subtract, with the borrow to O (R143). -/
def execSub (a b : Operand) (s : State) : Host.Outcome State Fault Refusal := resultStep aluSub a b s

/-- MUL a, b: unsigned multiply, with the high word to O (R144). -/
def execMul (a b : Operand) (s : State) : Host.Outcome State Fault Refusal := resultStep aluMul a b s

/-- DIV a, b: unsigned divide, with the fraction to O; a zero divisor is a defined result (R145). -/
def execDiv (a b : Operand) (s : State) : Host.Outcome State Fault Refusal := resultStep aluDiv a b s

/-- MOD a, b: unsigned remainder; O becomes 0 (R146). -/
def execMod (a b : Operand) (s : State) : Host.Outcome State Fault Refusal := resultStep aluMod a b s

end Sys2Proof.Machine
end

