-- ==== Sys2Proof/Machine/Conditional.lean ====
section
/-! DEFINITION. The conditionals (spec/43_conditional.md): each writes SKIP and nothing else (R181). -/

namespace Sys2Proof.Machine

/-- IFE a, b: execute the next instruction if equal (R182). -/
def execIfe (a b : Operand) (s : State) : Host.Outcome State Fault Refusal := conditionalStep condEqual a b s

/-- IFN a, b: execute the next instruction if not equal (R183). -/
def execIfn (a b : Operand) (s : State) : Host.Outcome State Fault Refusal := conditionalStep condNotEqual a b s

/-- IFG a, b: execute the next instruction if greater, unsigned (R184). -/
def execIfg (a b : Operand) (s : State) : Host.Outcome State Fault Refusal := conditionalStep condGreater a b s

/-- IFB a, b: execute the next instruction if any common bit is set (R185). -/
def execIfb (a b : Operand) (s : State) : Host.Outcome State Fault Refusal := conditionalStep condAnyBit a b s

end Sys2Proof.Machine
end

