-- ==== Sys2Proof/Machine/Extended.lean ====
section
/-! DEFINITION. The extended instructions (spec/44_extended.md): JSR is the only one (R200, R202). -/

namespace Sys2Proof.Machine

/-- JSR b: push PC, the address after the whole instruction, and jump to the operand's value, which was read before the push
(R201). -/
def execJsr (b : Operand) (s : State) : Host.Outcome State Fault Refusal :=
  extendedStep b (fun target t => (t.pushWord t.pc).setPc target) s

end Sys2Proof.Machine
end

