-- ==== Sys2Proof/Machine/ShiftLogic.lean ====
section
/-! DEFINITION. The shift and logic family (spec/42_shift_logic.md). -/

namespace Sys2Proof.Machine

/-- SHL a, b: shift left, with the bits shifted out to O (R161). -/
def execShl (a b : Operand) (s : State) : Host.Outcome State Fault Refusal := resultStep aluShl a b s

/-- SHR a, b: logical shift right, with the bits shifted out to O (R162). -/
def execShr (a b : Operand) (s : State) : Host.Outcome State Fault Refusal := resultStep aluShr a b s

/-- AND a, b: bitwise and; O unchanged (R163). -/
def execAnd (a b : Operand) (s : State) : Host.Outcome State Fault Refusal := logicStep aluAnd a b s

/-- OR a, b: bitwise inclusive or; O unchanged (R164). -/
def execOr (a b : Operand) (s : State) : Host.Outcome State Fault Refusal := logicStep aluOr a b s

/-- XOR a, b: bitwise exclusive or; O unchanged (R165). -/
def execXor (a b : Operand) (s : State) : Host.Outcome State Fault Refusal := logicStep aluXor a b s

end Sys2Proof.Machine
end

