-- ==== Sys2Proof/Machine/Dispatch.lean ====
section
/-! DEFINITION. One arm per instruction (spec/40_cycle_and_operands.md R132). -/

namespace Sys2Proof.Machine

def exec (i : Instr) (s : State) : Host.Outcome State Fault Refusal :=
  match i with
  -- move and arithmetic
  | .set a b => Sys2Proof.Machine.execSet a b s
  | .add a b => Sys2Proof.Machine.execAdd a b s
  | .sub a b => Sys2Proof.Machine.execSub a b s
  | .mul a b => Sys2Proof.Machine.execMul a b s
  | .div a b => Sys2Proof.Machine.execDiv a b s
  | .mod a b => Sys2Proof.Machine.execMod a b s
  -- shift and logic
  | .shl a b => Sys2Proof.Machine.execShl a b s
  | .shr a b => Sys2Proof.Machine.execShr a b s
  | .and a b => Sys2Proof.Machine.execAnd a b s
  | .or a b => Sys2Proof.Machine.execOr a b s
  | .xor a b => Sys2Proof.Machine.execXor a b s
  -- conditionals
  | .ife a b => Sys2Proof.Machine.execIfe a b s
  | .ifn a b => Sys2Proof.Machine.execIfn a b s
  | .ifg a b => Sys2Proof.Machine.execIfg a b s
  | .ifb a b => Sys2Proof.Machine.execIfb a b s
  -- extended
  | .jsr b => Sys2Proof.Machine.execJsr b s

end Sys2Proof.Machine
end

