-- ==== Sys2Proof/Machine/Fetch.lean ====
section
/-! DEFINITION. Fetching and decoding one instruction word, and placing words where the next fetch reads them
(spec/40_cycle_and_operands.md R118, R119; spec/60_exceptions.md R221). -/

namespace Sys2Proof.Machine

/-- Fetch (R118) and decode (R119): the instruction and the state with PC past its word, or the step error, recorded with the
word and the address it was fetched at (R221). An unassigned extended word errs whether or not SKIP is set (R123, decision D9;
log entry 8). -/
def fetchInstr (s : State) : Except Fault (Instr × State) :=
  match decode s.nextWord.1 with
  | .ok i => .ok (i, s.nextWord.2)
  | .error e => .error (raiseStepError e s.nextWord.1 s.pc)

/-- Words stored one after another from an address on, wrapping. -/
def State.placeWords (s : State) (addr : Word) : List Word → State
  | [] => s
  | v :: vs => (s.writeMem addr v).placeWords (addr + 1) vs

/-- The three words of the longest instruction (R76), from a number whose bits 15..0 are the first word. Bits at and above
`nbits` are 0. -/
def tableWords (nbits w : Nat) : List Word :=
  [trunc16 (w % 2 ^ nbits), trunc16 (w % 2 ^ nbits / 2 ^ 16), trunc16 (w % 2 ^ nbits / 2 ^ 32)]

end Sys2Proof.Machine
end

