-- ==== Sys2Proof/Machine/Step.lean ====
section
/-! DEFINITION. One step of the machine: exactly one instruction (spec/40_cycle_and_operands.md R100), and placing an
instruction where the next step fetches it. -/

namespace Sys2Proof.Machine

/-- One step (R100): fetch, decode, then the instruction's meaning; or the step error (R220). -/
def step (s : State) : Host.Outcome State Fault Refusal :=
  match fetchInstr s with
  | .ok (i, t) => exec i t
  | .error f => .fault f

/-- The state with an instruction stored at PC, where the next step fetches it, its next words zero. Nothing else changes: the
core fetches at PC and at nothing else (R118). This stands for the external load of a program (R5, R12; log entry 10). -/
def State.withFetchWord (s : State) (nbits w : Nat) : State := s.placeWords s.pc (tableWords nbits w)

end Sys2Proof.Machine
end

