-- ==== Sys2Proof/Machine/AfterError.lean ====
section
/-! DEFINITION. What the host may find in the machine after a step error (spec/60_exceptions.md R223). The spec leaves that
state unspecified within a frame, so it is a relation and not a next state: a step error ends the run (decision D10; log
entry 9), and a claim about what the host reads afterwards holds for every state the relation allows. -/

namespace Sys2Proof.Machine

/-- The states an aborted fetch may leave (R223): PC advanced by one or not, SKIP cleared or not, nothing else changed. R223
does not say which of them it is, and none is chosen here. -/
def abortedFetchStates (s : State) : List State :=
  [s, s.setSkip false, s.setPc (s.pc + 1), (s.setPc (s.pc + 1)).setSkip false]

/-- A memory word that the step taken in `s` could write (R223): some instruction, run on the fetched state, changes it. When
`s` skips there is none (R124). -/
def stepCouldWrite (s : State) (addr : Word) : Prop :=
  ∃ i t, exec i s.nextWord.2 = .next t ∧ t.readMem addr ≠ s.readMem addr

/-- `t` is a state the host may find after the step error `f` of a step taken in `s` (R223). An unrecognized extended opcode is
detected before any operand is resolved (R123), so only PC and SKIP may have changed. For the error that no step raises (R222)
only R223's general promise stands: memory words other than those the step could write are unchanged. -/
def stateAfterError (f : Fault) (s t : State) : Prop :=
  match f with
  | .unrecognizedExtendedOpcode _ _ _ => t ∈ abortedFetchStates s
  | .invalidAddressingMode _ => ∀ addr, ¬stepCouldWrite s addr → t.readMem addr = s.readMem addr

end Sys2Proof.Machine
end

