-- ==== Sys2Proof/Machine/Launch.lean ====
section
/-! DEFINITION. The host's side of the interface: construction with an image, and read-only introspection
(spec/00_scope.md R12, R14; spec/70_reset_and_hazards.md R250, R254). Stepping is `step`. -/

namespace Sys2Proof.Machine

/-- Image words stored at consecutive addresses (R12: word k at address k). -/
def Memory.load (m : Memory) (addr : Nat) : List Word → Memory
  | [] => m
  | v :: vs => (m.write addr v).load (addr + 1) vs

/-- Construct and load (R12): the reset state with the image at address 0. An image longer than memory is refused, not wrapped
(R254, decision D20; log entry 12). This is the default of `P_LAUNCH` (R250, decision D13); any other launch state is a
`State` that a claim names (log entry 10). -/
def State.load (image : List Word) : Host.Outcome State Fault Refusal :=
  if image.length ≤ Config.memoryWords then
    .next { State.reset with mem := Memory.load State.reset.mem 0 image }
  else .refused (.imageTooLong image.length)

/-- What the host may read (R14): every register, O, PC, SP and arbitrary memory words. The skip flag is not in the list (R30,
decision D11; log entry 16). -/
inductive Probe where
  | reg (r : Reg)
  | o
  | pc
  | sp
  | mem (addr : Word)
deriving DecidableEq, Repr

/-- Introspection (R14): read-only, so it answers a word and no state. -/
def State.introspect (s : State) : Probe → Word
  | .reg r => s.getReg r
  | .o => s.o
  | .pc => s.pc
  | .sp => s.sp
  | .mem addr => s.readMem addr

end Sys2Proof.Machine
end

