-- ==== Sys2Proof/Safety.lean ====
section
/-! DEFINITION. What counts as a safe run: the host steps until its own end-of-run predicate holds, and no step errs
(spec/00_scope.md R16; spec/70_reset_and_hazards.md R255; spec/60_exceptions.md R220, R223). -/

namespace Sys2Proof.Machine

/-- The host's run loop (R16): step until `halt` (`P_HALT`, R255, decision D14; log entry 11) holds or `fuel` steps are taken;
a step error ends the run (R223). -/
def runUntil (halt : State → Bool) : Nat → State → Host.Outcome State Fault Refusal
  | 0, s => .next s
  | fuel + 1, s =>
    if halt s then .next s
    else
      match step s with
      | .next t => runUntil halt fuel t
      | .fault f => .fault f
      | .refused r => .refused r

/-- `t` is a state the host may find when its run is over (R14, R16): the state where the run stopped, or, where a step erred,
a state that error may leave (R223). A refusal, which no step answers, leaves none. -/
def runEndsIn (halt : State → Bool) : Nat → State → State → Prop
  | 0, s, t => t = s
  | fuel + 1, s, t =>
    if halt s then t = s
    else
      match step s with
      | .next u => runEndsIn halt fuel u t
      | .fault f => stateAfterError f s t
      | .refused _ => False

/-- An end-of-run predicate of the kind R255 names: PC is at a sentinel address. -/
def haltAt (sentinel : Word) (s : State) : Bool := decide (s.pc = sentinel)

/-- The word at PC starts a legal instruction (R80, R81): the one thing that makes a step safe. -/
def fetchesInstruction (s : State) : Bool :=
  match decode (s.readMem s.pc) with
  | .ok _ => true
  | .error _ => false

/-- The first `n` steps from a state complete without a step error. -/
def safeFor : Nat → State → Bool
  | 0, _ => true
  | n + 1, s =>
    match step s with
    | .next t => safeFor n t
    | .fault _ => false
    | .refused _ => false

end Sys2Proof.Machine
end

