-- ==== Sys2Proof/Certificates/Slice0/Obligations.lean ====
section
/-! DEFINITION. The statements for the provers, and the terms they are stated in. A state given to `exec` is the state after the
fetch of the instruction word (PC already past it, R118); a state given to `step` is the state before it. -/

namespace Sys2Proof.Claims

open Sys2Proof.Machine

/-! ### Terms of the per-instruction statements -/

/-- `va` as an unsigned number: the destination's value, read after the source operand's side effects (R125; that order is
the spec's own decision D4, log entry 3). -/
def destNat (a b : Operand) (s : State) : Nat := (resolveBoth a b s).destValue.toNat

/-- `vb` as an unsigned number (R130). -/
def sourceNat (a b : Operand) (s : State) : Nat := (resolveBoth a b s).sourceValue.toNat

/-- The destination holds `r`, O holds `ov`, and everything else is as the operands' resolution left it: every other general
register, every other memory word, SP and PC moved by the operands' own amounts (unless one is the destination), SKIP clear.
With O as destination the survivor is `P_O_DEST_ORDER`'s (R126), whatever that is; a literal destination is no location, so
nothing but O changes (R103, R127). -/
def WritesResultAndO (a b : Operand) (s t : State) (r ov : Word) : Prop :=
  (∀ q, t.getReg q = if (resolveBoth a b s).dest = .reg q then r else s.getReg q) ∧
  (∀ x, t.readMem x = if (resolveBoth a b s).dest = .mem x then r else s.readMem x) ∧
  (t.sp = if (resolveBoth a b s).dest = .sp then r else s.sp + stackMove a + stackMove b) ∧
  (t.pc = if (resolveBoth a b s).dest = .pc then r else s.pc + nextWords a + nextWords b) ∧
  (t.o = if (resolveBoth a b s).dest = .o
    then (match Config.oDestOrder with | .destThenO => ov | .oThenDest => r) else ov) ∧
  t.skip = false

/-- The destination holds `r` and O is unchanged unless it is the destination; the rest as in `WritesResultAndO`. -/
def WritesResultOnly (a b : Operand) (s t : State) (r : Word) : Prop :=
  (∀ q, t.getReg q = if (resolveBoth a b s).dest = .reg q then r else s.getReg q) ∧
  (∀ x, t.readMem x = if (resolveBoth a b s).dest = .mem x then r else s.readMem x) ∧
  (t.sp = if (resolveBoth a b s).dest = .sp then r else s.sp + stackMove a + stackMove b) ∧
  (t.pc = if (resolveBoth a b s).dest = .pc then r else s.pc + nextWords a + nextWords b) ∧
  (t.o = if (resolveBoth a b s).dest = .o then r else s.o) ∧
  t.skip = false

/-- Nothing is written but SKIP, which is set exactly when `unmet` holds; SP and PC move by the operands' own amounts. -/
def WritesSkipOnly (a b : Operand) (s t : State) (unmet : Prop) : Prop :=
  (∀ q, t.getReg q = s.getReg q) ∧
  (∀ x, t.readMem x = s.readMem x) ∧
  t.sp = s.sp + stackMove a + stackMove b ∧
  t.pc = s.pc + nextWords a + nextWords b ∧
  t.o = s.o ∧
  (t.skip = true ↔ unmet)

/-- A descriptor has a mode, and that mode resolves in `s` to the location and the state given. -/
def ResolvesTo (d : Descriptor) (s : State) (loc : Loc) (t : State) : Prop :=
  ∃ p, decodeOperand d = .ok p ∧ s.resolve p = (loc, t)

/-! ### Terms of the whole-machine statements -/

/-- The instruction that stands at PC. -/
def IsNext (i : Instr) (s : State) : Prop := decode (s.readMem s.pc) = .ok i

/-- The operands of an instruction, in the order they are resolved. -/
def operandsOf : Instr → List Operand
  | .set a b => [a, b]
  | .add a b => [a, b]
  | .sub a b => [a, b]
  | .mul a b => [a, b]
  | .div a b => [a, b]
  | .mod a b => [a, b]
  | .shl a b => [a, b]
  | .shr a b => [a, b]
  | .and a b => [a, b]
  | .or a b => [a, b]
  | .xor a b => [a, b]
  | .ife a b => [a, b]
  | .ifn a b => [a, b]
  | .ifg a b => [a, b]
  | .ifb a b => [a, b]
  | .jsr b => [b]

/-- The length of an instruction in words (R76): its word and one for each operand that uses a next word. -/
def lengthOf (i : Instr) : Word := 1 + ((operandsOf i).map nextWords).sum

/-- How far resolving an instruction's operands moves SP. -/
def stackMoveOf (i : Instr) : Word := ((operandsOf i).map stackMove).sum

/-- The operand an instruction writes its result to, if it writes one (the "writes `a`" column of R78). -/
def destinationOf : Instr → Option Operand
  | .set a _ => some a
  | .add a _ => some a
  | .sub a _ => some a
  | .mul a _ => some a
  | .div a _ => some a
  | .mod a _ => some a
  | .shl a _ => some a
  | .shr a _ => some a
  | .and a _ => some a
  | .or a _ => some a
  | .xor a _ => some a
  | .ife _ _ => none
  | .ifn _ _ => none
  | .ifg _ _ => none
  | .ifb _ _ => none
  | .jsr _ => none

/-- The location an instruction writes its result to, from the state before its fetch: the destination is the first operand
resolved, on the fetched state (R120). -/
def destinationLoc (i : Instr) (s : State) : Option Loc :=
  (destinationOf i).map (fun a => ((s.setPc (s.pc + 1)).resolve a).1)

/-- The instruction has O among what it writes (the "writes O" column of R78). -/
def writesO : Instr → Bool
  | .set _ _ => true
  | .add _ _ => true
  | .sub _ _ => true
  | .mul _ _ => true
  | .div _ _ => true
  | .mod _ _ => true
  | .shl _ _ => true
  | .shr _ _ => true
  | .and _ _ => false
  | .or _ _ => false
  | .xor _ _ => false
  | .ife _ _ => false
  | .ifn _ _ => false
  | .ifg _ _ => false
  | .ifb _ _ => false
  | .jsr _ => false

/-- The instruction is one of the four conditionals. -/
def isConditional : Instr → Bool
  | .set _ _ => false
  | .add _ _ => false
  | .sub _ _ => false
  | .mul _ _ => false
  | .div _ _ => false
  | .mod _ _ => false
  | .shl _ _ => false
  | .shr _ _ => false
  | .and _ _ => false
  | .or _ _ => false
  | .xor _ _ => false
  | .ife _ _ => true
  | .ifn _ _ => true
  | .ifg _ _ => true
  | .ifb _ _ => true
  | .jsr _ => false

/-- The instruction is JSR. -/
def isJsr (i : Instr) : Prop := ∃ b, i = .jsr b

/-- The address of a location in memory. -/
def addressOf : Loc → Option Word
  | .mem x => some x
  | .reg _ => none
  | .sp => none
  | .pc => none
  | .o => none
  | .lit _ => none

/-- The address a step stores to, if it stores: the destination's memory address, or JSR's push slot, one below SP after the
operand is resolved (R55, R201); a skipped step stores nothing. -/
def storeAddress (i : Instr) (s : State) : Option Word :=
  if s.skip then none
  else
    match i with
    | .jsr b => some ((resolveOne b (s.setPc (s.pc + 1))).after.sp - 1)
    | i => (destinationLoc i s).bind addressOf

/-! ### The reference step: the spec's record and pseudocode (R20, R101 to R116, R122, R123, R141 to R201), on raw words -/

/-- The machine state record of R20, with registers and memory as functions. -/
structure RefState where
  x : Fin 8 → Word
  m : Word → Word
  pc : Word
  sp : Word
  o : Word
  skip : Bool

/-- `Loc` of R101. -/
inductive RefLoc where
  | reg (i : Fin 8)
  | mem (addr : Word)
  | sp
  | pc
  | o
  | lit (v : Word)

/-- The two outcomes of a step (R100), the error with what it records (R220). -/
inductive RefOutcome where
  | ok (s : RefState)
  | error (ext : Nat) (w addr : Word)

/-- `read(loc)` (R102). -/
def RefState.read (s : RefState) : RefLoc → Word
  | .reg i => s.x i
  | .mem addr => s.m addr
  | .sp => s.sp
  | .pc => s.pc
  | .o => s.o
  | .lit v => v

/-- `write(loc, v)` (R103), `v` an integer before truncation. -/
def RefState.write (s : RefState) (loc : RefLoc) (v : Int) : RefState :=
  match loc with
  | .reg i => { s with x := fun k => if k = i then BitVec.ofInt 16 v else s.x k }
  | .mem addr => { s with m := fun k => if k = addr then BitVec.ofInt 16 v else s.m k }
  | .sp => { s with sp := BitVec.ofInt 16 v }
  | .pc => { s with pc := BitVec.ofInt 16 v }
  | .o => { s with o := BitVec.ofInt 16 v }
  | .lit _ => s

/-- `NextWord()` (R104). -/
def RefState.next (s : RefState) : Word × RefState := (s.m s.pc, { s with pc := BitVec.ofNat 16 (s.pc.toNat + 1) })

/-- `resolve(d)` (R105 to R116), by the descriptor's number. -/
def RefState.resolve (s : RefState) (d : Nat) : RefLoc × RefState :=
  if d ≤ 0x07 then (.reg (Fin.ofNat 8 d), s)
  else if d ≤ 0x0F then (.mem (s.x (Fin.ofNat 8 (d - 8))), s)
  else if d ≤ 0x17 then
    (.mem (BitVec.ofNat 16 ((s.x (Fin.ofNat 8 (d - 16))).toNat + s.next.1.toNat)), s.next.2)
  else if d = 0x18 then (.mem s.sp, { s with sp := BitVec.ofNat 16 (s.sp.toNat + 1) })
  else if d = 0x19 then (.mem s.sp, s)
  else if d = 0x1A then
    (.mem (BitVec.ofInt 16 ((s.sp.toNat : Int) - 1)), { s with sp := BitVec.ofInt 16 ((s.sp.toNat : Int) - 1) })
  else if d = 0x1B then (.sp, s)
  else if d = 0x1C then (.pc, s)
  else if d = 0x1D then (.o, s)
  else if d = 0x1E then (.mem s.next.1, s.next.2)
  else if d = 0x1F then (.lit s.next.1, s.next.2)
  else (.lit (BitVec.ofNat 16 (d - 0x20)), s)

/-- `wr(r, ov)`: the two writes, in the order the parameter gives (R126). -/
def RefState.writeBoth (s : RefState) (order : ODestOrder) (la : RefLoc) (r ov : Int) : RefState :=
  match order with
  | .destThenO => (s.write la r).write .o ov
  | .oThenDest => (s.write .o ov).write la r

/-- `execute(op, la, va, vb)`: phase 3 of the basic step, by the opcode's number (R141 to R146, R161 to R165, R182 to
R185). -/
def RefState.execute (s : RefState) (order : ODestOrder) (op : Nat) (la : RefLoc) (va vb : Nat) : RefState :=
  match op with
  | 0x1 => s.writeBoth order la vb 0
  | 0x2 => s.writeBoth order la (va + vb : Nat) (if va + vb ≥ 2 ^ 16 then 1 else 0)
  | 0x3 => s.writeBoth order la ((va : Int) - vb) (if (va : Int) - vb < 0 then 0xFFFF else 0)
  | 0x4 => s.writeBoth order la (va * vb : Nat) (va * vb / 2 ^ 16 : Nat)
  | 0x5 => if vb = 0 then s.writeBoth order la 0 0 else s.writeBoth order la (va / vb : Nat) (va * 2 ^ 16 / vb : Nat)
  | 0x6 => if vb = 0 then s.writeBoth order la 0 0 else s.writeBoth order la (va % vb : Nat) 0
  | 0x7 => s.writeBoth order la (va * 2 ^ vb : Nat) (va * 2 ^ vb / 2 ^ 16 : Nat)
  | 0x8 => s.writeBoth order la (va / 2 ^ vb : Nat) (va * 2 ^ 16 / 2 ^ vb : Nat)
  | 0x9 => s.write la (va &&& vb : Nat)
  | 0xA => s.write la (va ||| vb : Nat)
  | 0xB => s.write la (va ^^^ vb : Nat)
  | 0xC => { s with skip := !decide (va = vb) }
  | 0xD => { s with skip := !decide (va ≠ vb) }
  | 0xE => { s with skip := !decide (va > vb) }
  | _ => { s with skip := !decide (va &&& vb ≠ 0) }

/-- JSR's operation (R201). -/
def RefState.jsr (s : RefState) (target : Word) : RefState :=
  let sp := BitVec.ofInt 16 ((s.sp.toNat : Int) - 1)
  { (RefState.write { s with sp := sp } (.mem sp) s.pc.toNat) with pc := target }

/-- The basic step after fetch (R122). -/
def RefState.basic (s : RefState) (order : ODestOrder) (op a b : Nat) : RefState :=
  let la := (s.resolve a).1
  let s1 := (s.resolve a).2
  let skipping := s1.skip
  let s2 := { s1 with skip := false }
  let lb := (s2.resolve b).1
  let s3 := (s2.resolve b).2
  let vb := s3.read lb
  if skipping then s3
  else
    let va := s3.read la
    s3.execute order op la va.toNat vb.toNat

/-- The extended step after fetch, for a word with a table entry (R123). -/
def RefState.extended (s : RefState) (b : Nat) : RefState :=
  let skipping := s.skip
  let s1 := { s with skip := false }
  let lb := (s1.resolve b).1
  let s2 := (s1.resolve b).2
  let vb := s2.read lb
  if skipping then s2 else s2.jsr vb

/-- The step (R118, R119, R122, R123): the fields are numbers taken from the word by division. -/
def RefState.step (s : RefState) (order : ODestOrder) : RefOutcome :=
  let w := s.next.1
  let s1 := s.next.2
  let op := w.toNat % 16
  let a := w.toNat / 16 % 64
  let b := w.toNat / 1024
  if op ≠ 0 then .ok (s1.basic order op a b)
  else if a ≠ 0x01 then .error a w (BitVec.ofInt 16 ((s1.pc.toNat : Int) - 1))
  else .ok (s1.extended b)

/-- The record of R20 that a state of the model stands for. -/
def refOf (s : State) : RefState where
  x := fun i => s.getReg (Reg.ofIndex (BitVec.ofNat 3 i.val))
  m := s.readMem
  pc := s.pc
  sp := s.sp
  o := s.o
  skip := s.skip

end Sys2Proof.Claims

open Sys2Proof Sys2Proof.Machine Sys2Proof.Claims

/-! ### Encoding -/

/-- Words written out from the encodings of R71, R72, R78, R79, one for each instruction, decode to the instruction they stand
for; 0x8401, 0x0010 and 0x7DE1 are R92's. The opcode values but SET's are the spec's decisions D1 and D2 (log entry 4). -/
def Obligations.WrittenOutWordsDecode : Prop :=
  decode 0x8401 = .ok (.set (.reg .a) (.smallLit 1)) ∧
  decode 0x7DE1 = .ok (.set .nextMem .nextLit) ∧
  decode 0x0010 = .ok (.jsr (.reg .a)) ∧
  decode 0x61B2 = .ok (.add .sp .pop) ∧
  decode 0x85C3 = .ok (.sub .pc (.smallLit 1)) ∧
  decode 0x7C04 = .ok (.mul (.reg .a) .nextLit) ∧
  decode 0x2405 = .ok (.div (.reg .a) (.regMem .b)) ∧
  decode 0xC006 = .ok (.mod (.reg .a) (.smallLit 16)) ∧
  decode 0x7417 = .ok (.shl (.reg .b) .o) ∧
  decode 0xFC08 = .ok (.shr (.reg .a) (.smallLit 31)) ∧
  decode 0x0209 = .ok (.and (.smallLit 0) (.reg .a)) ∧
  decode 0x7C8A = .ok (.or (.regMem .a) .nextLit) ∧
  decode 0x5D6B = .ok (.xor (.regNextMem .i) (.regNextMem .j)) ∧
  decode 0x818C = .ok (.ife .pop (.smallLit 0)) ∧
  decode 0x69AD = .ok (.ifn .push .push) ∧
  decode 0x659E = .ok (.ifg .peek .peek) ∧
  decode 0x79DF = .ok (.ifb .o .nextMem)

/-- Decoding the word of any well-formed instruction gives that instruction back: no bit of an encoding is dropped. -/
def Obligations.DecodeOfEncodeIsTheInstruction : Prop :=
  ∀ i : Instr, i.wellFormed = true → decode (encode i) = .ok i

/-- A word that decodes is the word of exactly the instruction it decodes to, and that instruction is well-formed: no two
words mean one instruction, and every bit of a legal word matters. -/
def Obligations.EncodeOfDecodeIsTheWord : Prop :=
  ∀ (w : Word) (i : Instr), decode w = .ok i → i.wellFormed = true ∧ encode i = w

/-- The illegal words are exactly the extended ones whose `ext` is not 0x01 (R80, R81; 0x01 is the spec's decision D2, log
entry 4), and each is rejected by that name. -/
def Obligations.OnlyUnassignedExtendedWordsAreIllegal : Prop :=
  (∀ w : Word, w.toNat % 16 = 0 → w.toNat / 16 % 64 ≠ 1 →
    decode w = .error (.unrecognizedExtendedOpcode (BitVec.ofNat 6 (w.toNat / 16)))) ∧
  (∀ w : Word, w.toNat % 16 ≠ 0 ∨ w.toNat / 16 % 64 = 1 → ∃ i, decode w = .ok i)

/-- A descriptor uses a next word exactly when it is in 0x10..0x17, 0x1E or 0x1F, and then one (R76). -/
def Obligations.NextWordDescriptors : Prop :=
  ∀ (d : Descriptor) (p : Operand), decodeOperand d = .ok p →
    nextWords p = if (0x10 ≤ d.toNat ∧ d.toNat ≤ 0x17) ∨ d.toNat = 0x1E ∨ d.toNat = 0x1F then 1 else 0

/-! ### Operand resolution and locations -/

/-- What every descriptor but 0x10..0x17 resolves to, with its side effect (R105, R106, R108 to R111, R113 to R116; the clause
for 0x1C is R112's first sentence); `RegisterPlusNextWordWraps` has 0x10..0x17. -/
def Obligations.ResolutionOfEveryModeButRegisterPlusNextWord : Prop :=
  ∀ s : State,
    (∀ i : BitVec 3, ResolvesTo (i.setWidth 6) s (.reg (Reg.ofIndex i)) s) ∧
    (∀ i : BitVec 3, ResolvesTo (0x08 + i.setWidth 6) s (.mem (s.getReg (Reg.ofIndex i))) s) ∧
    ResolvesTo 0x18 s (.mem s.sp) { s with sp := s.sp + 1 } ∧
    ResolvesTo 0x19 s (.mem s.sp) s ∧
    ResolvesTo 0x1A s (.mem (s.sp - 1)) { s with sp := s.sp - 1 } ∧
    ResolvesTo 0x1B s .sp s ∧
    ResolvesTo 0x1C s .pc s ∧
    ResolvesTo 0x1D s .o s ∧
    ResolvesTo 0x1E s (.mem (s.readMem s.pc)) { s with pc := s.pc + 1 } ∧
    ResolvesTo 0x1F s (.lit (s.readMem s.pc)) { s with pc := s.pc + 1 } ∧
    (∀ v : BitVec 5, ResolvesTo (0x20 + v.setWidth 6) s (.lit (v.setWidth 16)) s)

/-- Descriptors 0x10..0x17 address register plus next word, the sum taken modulo 2^16, and move PC past the word. The wrap of
the sum is the spec's own choice (decision D6, log entry 6). -/
def Obligations.RegisterPlusNextWordWraps : Prop :=
  ∀ (s : State) (i : BitVec 3), ∃ addr : Word,
    ResolvesTo (0x10 + i.setWidth 6) s (.mem addr) { s with pc := s.pc + 1 } ∧
    addr.toNat = ((s.getReg (Reg.ofIndex i)).toNat + (s.readMem s.pc).toNat) % 65536

/-- Reading and writing a location (R102, R103): a write changes the location named and nothing else, and a write to a literal
changes nothing. -/
def Obligations.LocationReadAndWrite : Prop :=
  ∀ (s : State) (v : Word),
    (∀ r, s.readLoc (.reg r) = s.getReg r) ∧ (∀ x, s.readLoc (.mem x) = s.readMem x) ∧
    s.readLoc .sp = s.sp ∧ s.readLoc .pc = s.pc ∧ s.readLoc .o = s.o ∧ s.readLoc (.lit v) = v ∧
    (∀ loc,
      (∀ q, (s.writeLoc loc v).getReg q = if loc = .reg q then v else s.getReg q) ∧
      (∀ x, (s.writeLoc loc v).readMem x = if loc = .mem x then v else s.readMem x) ∧
      ((s.writeLoc loc v).sp = if loc = .sp then v else s.sp) ∧
      ((s.writeLoc loc v).pc = if loc = .pc then v else s.pc) ∧
      ((s.writeLoc loc v).o = if loc = .o then v else s.o) ∧
      (s.writeLoc loc v).skip = s.skip) ∧
    (∀ u, s.writeLoc (.lit u) v = s)

/-- No address has a side effect: a memory write changes only its word, and resolving an operand changes PC and SP only
(R57). -/
def Obligations.AddressesHaveNoSideEffects : Prop :=
  (∀ (s : State) (x v y : Word), (s.writeMem x v).readMem y = if y = x then v else s.readMem y) ∧
  (∀ (s : State) (x v : Word), ∃ m, s.writeMem x v = { s with mem := m }) ∧
  (∀ (s : State) (p : Operand), ∃ pc sp, (s.resolve p).2 = { s with pc := pc, sp := sp })

/-! ### The machine: step, errors, reset, load -/

/-- When the word at PC decodes to an instruction, one step is that instruction's meaning on the state with PC past the word
(R118, R119). -/
def Obligations.StepRunsTheDecodedInstruction : Prop :=
  ∀ (s : State) (i : Instr), decode (s.readMem s.pc) = .ok i → step s = exec i { s with pc := s.pc + 1 }

/-- An extended word with no table entry is a step error, whether or not SKIP is set, recorded with `ext`, the word and its
address; and that error has no other cause (R221; that it is raised when skipping, what it carries and the value 0x01 are the
spec's decisions D9, D10, D2, log entries 8, 9, 4). -/
def Obligations.UnassignedExtendedWordIsAStepError : Prop :=
  (∀ s : State, (s.readMem s.pc).toNat % 16 = 0 → (s.readMem s.pc).toNat / 16 % 64 ≠ 1 →
    step s = .fault (.unrecognizedExtendedOpcode (BitVec.ofNat 6 ((s.readMem s.pc).toNat / 16)) (s.readMem s.pc) s.pc)) ∧
  (∀ (s : State) (ext : BitVec 6) (w addr : Word), step s = .fault (.unrecognizedExtendedOpcode ext w addr) →
    w = s.readMem s.pc ∧ addr = s.pc ∧ w.toNat % 16 = 0 ∧ ext = BitVec.ofNat 6 (w.toNat / 16) ∧ ext ≠ 1)

/-- Every 6-bit descriptor has a mode, so no step raises InvalidAddressingMode (R222). -/
def Obligations.InvalidAddressingModeIsNeverRaised : Prop :=
  (∀ d : Descriptor, ∃ p, decodeOperand d = .ok p) ∧
  (∀ (s : State) (d : Descriptor), step s ≠ .fault (.invalidAddressingMode d))

/-- A step has two outcomes and no third: it completes, or it ends in the step error of an unassigned extended word; it never
refuses (R100, R220). What the fault records, the word at PC and PC, is the spec's own decision D10 (log entry 9). -/
def Obligations.EveryStepCompletesOrErrs : Prop :=
  ∀ s : State, (∃ t, step s = .next t) ∨
    (∃ ext, step s = .fault (.unrecognizedExtendedOpcode ext (s.readMem s.pc) s.pc))

/-- After a step error everything the host may read is as before the step, but PC, which may have advanced by one; SKIP may have
been cleared; and every such state is allowed. This is R223's frame around the state it leaves unspecified: the spec's own
decision D10 (log entry 9). -/
def Obligations.StepErrorChangesAtMostPcAndSkip : Prop :=
  ∀ (s : State) (f : Fault), step s = .fault f →
    (∀ t, stateAfterError f s t →
      (∀ q, q ≠ .pc → t.introspect q = s.introspect q) ∧
      (t.pc = s.pc ∨ t.pc = s.pc + 1) ∧ (t.skip = s.skip ∨ t.skip = false)) ∧
    (∀ (pc : Word) (skip : Bool), pc = s.pc ∨ pc = s.pc + 1 → skip = s.skip ∨ skip = false →
      stateAfterError f s { s with pc := pc, skip := skip })

/-- A step error is terminal and precise: a run that ends in one took error-free steps up to a state whose step is that error,
no later step runs however much fuel is left, and the host finds a state that this one step's error may leave; a run that ends
without an error ends in its last state alone. (That the run ends at the error is the spec's own decision D10, log entry 9;
when the host halts is its own matter, log entry 11.) -/
def Obligations.RunEndsAtItsFirstStepError : Prop :=
  ∀ (halt : State → Bool) (n : Nat) (s : State),
    (∀ f, runUntil halt n s = .fault f →
      ∃ k < n, ∃ u, runUntil halt k s = .next u ∧ halt u = false ∧ step u = .fault f ∧
        (∀ m, k < m → runUntil halt m s = .fault f) ∧
        ∀ t, runEndsIn halt n s t ↔ stateAfterError f u t) ∧
    (∀ u, runUntil halt n s = .next u → ∀ t, runEndsIn halt n s t ↔ t = u)

/-- Division by zero is a defined result, a write to a literal is discarded, and no instruction errs in any state, so neither
overflow nor any memory access is an error (R224). -/
def Obligations.NothingAnInstructionDoesIsAnError : Prop :=
  (∀ (i : Instr) (s : State), ∃ t, exec i s = .next t) ∧
  (∀ (a b : Operand) (s : State), s.skip = false → sourceNat a b s = 0 →
    (∃ t, exec (.div a b) s = .next t ∧ WritesResultAndO a b s t 0 0) ∧
    (∃ t, exec (.mod a b) s = .next t ∧ WritesResultAndO a b s t 0 0)) ∧
  (∀ (s : State) (u v : Word), s.writeLoc (.lit u) v = s)

/-- The reset state is the table of R250 for an empty image, and every memory word reads 0. That PC, SP and O are among the
zero-initialised registers is the spec's own derivation (log entry 17). -/
def Obligations.ResetState : Prop :=
  (∀ r, State.reset.getReg r = 0) ∧ State.reset.pc = 0 ∧ State.reset.sp = 0 ∧ State.reset.o = 0 ∧
  State.reset.skip = false ∧ ∀ x, State.reset.readMem x = 0

/-- The reset memory is in canonical form (the form is the model's own, log entry 1). -/
def Obligations.ResetMemoryIsCanonical : Prop := State.reset.mem.wf

/-- Loading an image that fits stores word k at address k and leaves everything else at its reset value (R12). That
the loaded memory is in canonical form is the model's own choice of form (log entry 1). -/
def Obligations.LoadStoresTheImageAtZero : Prop :=
  ∀ image : List Word, image.length ≤ 65536 →
    ∃ m, State.load image = .next { State.reset with mem := m } ∧ m.wf ∧
      ∀ x : Word, ({ State.reset with mem := m } : State).readMem x =
        if x.toNat < image.length then image.getD x.toNat 0 else State.reset.readMem x

/-- An image of more than 65536 words is refused, not wrapped onto address 0: the spec's own decision D20 (log entry 12). -/
def Obligations.OverlongImageIsRefused : Prop :=
  ∀ image : List Word, 65536 < image.length → State.load image = .refused (.imageTooLong image.length)

/-! ### Move and arithmetic -/

/-- SET copies the source to the destination and writes 0 to O (R141): its opcode is 0x1 with any two descriptors, it completes
in every armed state, and from reset the word 0x8401 leaves A = 1, PC = 1, O = 0. -/
def Obligations.SetCopiesAndClearsO : Prop :=
  (∀ w : Word, w.toNat % 16 = 0x1 → ∃ a b, decodeOperand (BitVec.ofNat 6 (w.toNat / 16)) = .ok a ∧
    decodeOperand (BitVec.ofNat 6 (w.toNat / 1024)) = .ok b ∧ decode w = .ok (.set a b)) ∧
  (∀ (a b : Operand) (s : State), s.skip = false →
    ∃ t, exec (.set a b) s = .next t ∧ WritesResultAndO a b s t (resolveBoth a b s).sourceValue 0) ∧
  (∃ t, step (State.reset.writeMem 0 0x8401) = .next t ∧ t.getReg .a = 1 ∧ t.pc = 1 ∧ t.o = 0)

/-- ADD writes the sum modulo 2^16, and the carry to O. (The value read for the destination is after the source's side
effects: the spec's own decision D4, log entry 3; likewise in the statements below.) -/
def Obligations.AddWritesSumAndCarry : Prop :=
  ∀ (a b : Operand) (s : State), s.skip = false →
    ∃ t, exec (.add a b) s = .next t ∧
      WritesResultAndO a b s t ((resolveBoth a b s).destValue + (resolveBoth a b s).sourceValue)
        (if 65536 ≤ destNat a b s + sourceNat a b s then 1 else 0)

/-- SUB writes the difference modulo 2^16, and 0xFFFF to O on a borrow, else 0. -/
def Obligations.SubWritesDifferenceAndBorrow : Prop :=
  ∀ (a b : Operand) (s : State), s.skip = false →
    ∃ t, exec (.sub a b) s = .next t ∧
      WritesResultAndO a b s t ((resolveBoth a b s).destValue - (resolveBoth a b s).sourceValue)
        (if destNat a b s < sourceNat a b s then 0xFFFF else 0)

/-- MUL writes the low word of the unsigned product, and the high word to O. -/
def Obligations.MulWritesLowAndHighWord : Prop :=
  ∀ (a b : Operand) (s : State), s.skip = false →
    ∃ t r ov, exec (.mul a b) s = .next t ∧ WritesResultAndO a b s t r ov ∧
      destNat a b s * sourceNat a b s = ov.toNat * 65536 + r.toNat

/-- DIV writes the unsigned quotient, and the 16 bits below its binary point to O; both are 0 for a zero divisor. -/
def Obligations.DivWritesQuotientAndFraction : Prop :=
  ∀ (a b : Operand) (s : State), s.skip = false →
    ∃ t r ov, exec (.div a b) s = .next t ∧ WritesResultAndO a b s t r ov ∧
      r.toNat = destNat a b s / sourceNat a b s ∧ ov.toNat = destNat a b s * 65536 / sourceNat a b s % 65536

/-- MOD writes the unsigned remainder, 0 for a zero divisor, and 0 to O in every case. -/
def Obligations.ModWritesRemainderAndClearsO : Prop :=
  ∀ (a b : Operand) (s : State), s.skip = false →
    ∃ t r, exec (.mod a b) s = .next t ∧ WritesResultAndO a b s t r 0 ∧
      r.toNat = if sourceNat a b s = 0 then 0 else destNat a b s % sourceNat a b s

/-! ### Shift and logic -/

/-- SHL writes the value times 2^count modulo 2^16, and the next 16 bits above to O, for every 16-bit count. (That counts are
not masked is the spec's own decision D7, log entry 7.) -/
def Obligations.ShlWritesShiftedAndLostBits : Prop :=
  ∀ (a b : Operand) (s : State), s.skip = false →
    ∃ t r ov, exec (.shl a b) s = .next t ∧ WritesResultAndO a b s t r ov ∧
      r.toNat = destNat a b s * 2 ^ sourceNat a b s % 65536 ∧
      ov.toNat = destNat a b s * 2 ^ sourceNat a b s / 65536 % 65536

/-- SHR writes the value divided by 2^count, and the bits shifted out, left-aligned, to O, for every 16-bit count (decision
D7, log entry 7). -/
def Obligations.ShrWritesShiftedAndLostBits : Prop :=
  ∀ (a b : Operand) (s : State), s.skip = false →
    ∃ t r ov, exec (.shr a b) s = .next t ∧ WritesResultAndO a b s t r ov ∧
      r.toNat = destNat a b s / 2 ^ sourceNat a b s ∧
      ov.toNat = destNat a b s * 65536 / 2 ^ sourceNat a b s % 65536

/-- A shift by 32 or more writes 0 to the destination and to O, left or right (decision D7, log entry 7). -/
def Obligations.ShiftBy32OrMoreGivesZero : Prop :=
  ∀ (a b : Operand) (s : State), s.skip = false → 32 ≤ sourceNat a b s →
    (∃ t, exec (.shl a b) s = .next t ∧ WritesResultAndO a b s t 0 0) ∧
    (∃ t, exec (.shr a b) s = .next t ∧ WritesResultAndO a b s t 0 0)

/-- AND sets the bits set in both values and leaves O unchanged. -/
def Obligations.AndWritesCommonBits : Prop :=
  ∀ (a b : Operand) (s : State), s.skip = false →
    ∃ t r, exec (.and a b) s = .next t ∧ WritesResultOnly a b s t r ∧
      ∀ k < 16, r.getLsbD k = true ↔
        (resolveBoth a b s).destValue.getLsbD k = true ∧ (resolveBoth a b s).sourceValue.getLsbD k = true

/-- OR sets the bits set in either value and leaves O unchanged. -/
def Obligations.OrWritesEitherBits : Prop :=
  ∀ (a b : Operand) (s : State), s.skip = false →
    ∃ t r, exec (.or a b) s = .next t ∧ WritesResultOnly a b s t r ∧
      ∀ k < 16, r.getLsbD k = true ↔
        (resolveBoth a b s).destValue.getLsbD k = true ∨ (resolveBoth a b s).sourceValue.getLsbD k = true

/-- XOR sets the bits set in exactly one value and leaves O unchanged. -/
def Obligations.XorWritesDifferingBits : Prop :=
  ∀ (a b : Operand) (s : State), s.skip = false →
    ∃ t r, exec (.xor a b) s = .next t ∧ WritesResultOnly a b s t r ∧
      ∀ k < 16, r.getLsbD k = true ↔
        (resolveBoth a b s).destValue.getLsbD k ≠ (resolveBoth a b s).sourceValue.getLsbD k

/-! ### Conditionals -/

/-- IFE writes nothing but SKIP, and sets it exactly when the values differ. (The four conditions are the spec's own decision
D3, log entry 5.) -/
def Obligations.IfeSkipsUnlessEqual : Prop :=
  ∀ (a b : Operand) (s : State), s.skip = false →
    ∃ t, exec (.ife a b) s = .next t ∧ WritesSkipOnly a b s t (destNat a b s ≠ sourceNat a b s)

/-- IFN writes nothing but SKIP, and sets it exactly when the values are equal (decision D3, log entry 5). -/
def Obligations.IfnSkipsWhenEqual : Prop :=
  ∀ (a b : Operand) (s : State), s.skip = false →
    ∃ t, exec (.ifn a b) s = .next t ∧ WritesSkipOnly a b s t (destNat a b s = sourceNat a b s)

/-- IFG writes nothing but SKIP, and sets it exactly when the first value is not greater, unsigned (decision D3, log
entry 5). -/
def Obligations.IfgSkipsUnlessGreater : Prop :=
  ∀ (a b : Operand) (s : State), s.skip = false →
    ∃ t, exec (.ifg a b) s = .next t ∧ WritesSkipOnly a b s t (destNat a b s ≤ sourceNat a b s)

/-- IFB writes nothing but SKIP, and sets it exactly when no bit is set in both values (decision D3, log entry 5). -/
def Obligations.IfbSkipsWithoutCommonBit : Prop :=
  ∀ (a b : Operand) (s : State), s.skip = false →
    ∃ t, exec (.ifb a b) s = .next t ∧ WritesSkipOnly a b s t
      (∀ k < 16, ¬((resolveBoth a b s).destValue.getLsbD k = true ∧ (resolveBoth a b s).sourceValue.getLsbD k = true))

/-! ### Extended -/

/-- JSR stores PC, the address after the whole instruction, one below SP after the operand is resolved, and jumps to the
operand's value, which was read before the store; nothing else changes. -/
def Obligations.JsrPushesReturnAddressAndJumps : Prop :=
  ∀ (b : Operand) (s : State), s.skip = false →
    ∃ t, exec (.jsr b) s = .next t ∧
      t.pc = (resolveOne b s).value ∧
      t.sp = (resolveOne b s).after.sp - 1 ∧
      (resolveOne b s).after.sp = s.sp + stackMove b ∧
      (∀ x, t.readMem x = if x = (resolveOne b s).after.sp - 1 then s.pc + nextWords b else s.readMem x) ∧
      (∀ q, t.getReg q = s.getReg q) ∧ t.o = s.o ∧ t.skip = false

/-! ### Skipping -/

/-- A step taken with SKIP set makes exactly the addressing side effects of its operands and clears SKIP, whatever the
instruction: PC lands after the whole instruction, SP moves as the operands move it, and nothing else changes (R124). Its
worked example: SET PUSH, 5 leaves SP one lower and the memory as it was. -/
def Obligations.SkippedStepMakesOnlyAddressingSideEffects : Prop :=
  (∀ (s : State) (i : Instr), IsNext i s → s.skip = true →
    step s = .next { s with pc := s.pc + lengthOf i, sp := s.sp + stackMoveOf i, skip := false }) ∧
  (∃ t, step ({ State.reset with skip := true }.writeMem 0 0x95A1) = .next t ∧
    t.pc = 1 ∧ t.sp = 0xFFFF ∧ t.readMem 0xFFFF = 0 ∧ t.skip = false)

/-- SKIP survives exactly one step boundary: only a conditional in an armed step leaves it set, the next step clears it whatever
that step is, and the host cannot see it (R188). That the host cannot see SKIP is the spec's own decision D11 (log entry 16). -/
def Obligations.SkipLastsExactlyOneStep : Prop :=
  (∀ (s : State) (i : Instr) (t : State), IsNext i s → step s = .next t → t.skip = true →
    isConditional i = true ∧ s.skip = false) ∧
  (∀ s t : State, s.skip = true → step s = .next t → t.skip = false) ∧
  (∀ (s : State) (flag : Bool) (q : Probe), (s.setSkip flag).introspect q = s.introspect q)

/-! ### What a step may change -/

/-- PC advances by one at the fetch and by one for each next word, and otherwise changes only when it is the destination or by
JSR (R24). -/
def Obligations.PcMovesPastTheWholeInstruction : Prop :=
  (∀ s : State, s.nextWord = (s.readMem s.pc, { s with pc := s.pc + 1 })) ∧
  (∀ (s : State) (a b : Operand), (resolveBoth a b s).after.pc = s.pc + nextWords a + nextWords b) ∧
  (∀ (s : State) (b : Operand), (resolveOne b s).after.pc = s.pc + nextWords b) ∧
  (∀ (s : State) (i : Instr) (t : State), IsNext i s → step s = .next t →
    s.skip = true ∨ (destinationLoc i s ≠ some .pc ∧ ¬isJsr i) → t.pc = s.pc + lengthOf i)

/-- SP changes only as an addressing side effect, by JSR's push, or as the destination (R27). -/
def Obligations.SpChangesOnlyByStackModesJsrOrAsDestination : Prop :=
  ∀ (s : State) (i : Instr) (t : State), IsNext i s → step s = .next t →
    (s.skip = true ∨ (destinationLoc i s ≠ some .sp ∧ ¬isJsr i) → t.sp = s.sp + stackMoveOf i) ∧
    (s.skip = false → isJsr i → t.sp = s.sp + stackMoveOf i - 1)

/-- O changes only in an armed step of an instruction that writes O, or of one that has O as its destination (R28). -/
def Obligations.OChangesOnlyByItsWriters : Prop :=
  ∀ (s : State) (i : Instr) (t : State), IsNext i s → step s = .next t → t.o ≠ s.o →
    s.skip = false ∧ (writesO i = true ∨ destinationLoc i s = some .o)

/-- A general register changes only in an armed step whose destination it is (R23). -/
def Obligations.RegisterChangesOnlyAsDestination : Prop :=
  ∀ (s : State) (i : Instr) (t : State) (r : Reg), IsNext i s → step s = .next t → t.getReg r ≠ s.getReg r →
    s.skip = false ∧ destinationLoc i s = some (.reg r)

/-- A step stores at most one word, at the address its destination or its push computes; every other word of memory reads as
before (R55). -/
def Obligations.StepStoresOnlyAtItsStoreAddress : Prop :=
  ∀ (s : State) (i : Instr) (t : State), IsNext i s → step s = .next t →
    ∀ x : Word, storeAddress i s ≠ some x → t.readMem x = s.readMem x

/-! ### Combinations of instructions -/

/-- Push, then pop into the same register: the register and SP are restored, the word stays in memory below SP. -/
def Obligations.PushThenPopRoundTrips : Prop :=
  ∀ (r : Reg) (s : State), s.skip = false →
    ∃ t, exec (.set .push (.reg r)) s = .next t ∧ t.sp = s.sp - 1 ∧ t.readMem (s.sp - 1) = s.getReg r ∧
      ∀ p : Word, ∃ u, exec (.set (.reg r) .pop) (t.setPc p) = .next u ∧
        (∀ q, u.getReg q = s.getReg q) ∧ u.sp = s.sp ∧
        ∀ x, u.readMem x = if x = s.sp - 1 then s.getReg r else s.readMem x

/-- A call followed by a return: after JSR, SET PC, POP goes back to the address after the JSR and restores SP. -/
def Obligations.CallThenReturnComesBack : Prop :=
  ∀ (b : Operand) (s : State), s.skip = false →
    ∃ t, exec (.jsr b) s = .next t ∧
      ∀ p : Word, ∃ u, exec (.set .pc .pop) (t.setPc p) = .next u ∧
        u.pc = s.pc + nextWords b ∧ u.sp = s.sp + stackMove b ∧ ∀ q, u.getReg q = s.getReg q

/-- SET PUSH, POP leaves memory and SP unchanged (the read precedes the write of the same word): O is cleared and nothing else
changes, memory being in canonical form (log entry 1). -/
def Obligations.SetPushPopOnlyClearsO : Prop :=
  ∀ s : State, s.skip = false → s.mem.wf → exec (.set .push .pop) s = .next { s with o := 0 }

/-- SET [n], v (the word 0x7DE1) reads its own three words before it stores: it stores v at n even where n is the address of
one of those words, and PC moves past all three. -/
def Obligations.SetNextMemNextLitReadsItsWordsBeforeItStores : Prop :=
  ∀ s : State, s.skip = false → s.readMem s.pc = 0x7DE1 →
    ∃ t, step s = .next t ∧ t.pc = s.pc + 3 ∧
      ∀ x, t.readMem x = if x = s.readMem (s.pc + 1) then s.readMem (s.pc + 2) else s.readMem x

/-- Three instructions whose destination is SP or PC: ADD SP, POP adds to the SP the pop moved, ADD PC, n adds to the address
after the whole instruction, and SUB PC, 1, whose source has no side effect, is a loop of one instruction. That the destination
is read after the source's side effects is the spec's own decision D4 (log entry 3); that the word 0x85C3 is SUB PC, 1 rests on
SUB's opcode 0x3, its own decision D1 (log entry 4). -/
def Obligations.AddSpPopAndAddPcNextReadDestinationLastAndSubPcOneLoops : Prop :=
  ∀ s : State, s.skip = false →
    (∃ t, exec (.add .sp .pop) s = .next t ∧ t.sp = s.sp + 1 + s.readMem s.sp) ∧
    (∃ t, exec (.add .pc .nextLit) s = .next t ∧ t.pc = s.pc + 1 + s.readMem s.pc) ∧
    (s.readMem s.pc = 0x85C3 → ∃ t, step s = .next t ∧ t.pc = s.pc)

/-! ### Headline results -/

/-- Every step keeps the memory in canonical form (log entry 1), from every state that has it. -/
def Obligations.StepKeepsMemoryCanonical : Prop :=
  ∀ s t : State, s.mem.wf → step s = .next t → t.mem.wf

/-- What the host can read, together with SKIP, is the whole state: two states in canonical form that introspection cannot
tell apart differ at most in SKIP, and introspection never shows SKIP. (That SKIP is not observed is the spec's own decision
D11, log entry 16.) -/
def Obligations.IntrospectionShowsEverythingButSkip : Prop :=
  (∀ s t : State, s.mem.wf → t.mem.wf → (∀ q, s.introspect q = t.introspect q) → t = s.setSkip t.skip) ∧
  (∀ (s : State) (flag : Bool) (q : Probe), (s.setSkip flag).introspect q = s.introspect q)

/-- The model's step is the spec's pseudocode: on the record of R20, with the instruction's fields taken from the word as
numbers, the reference step answers what the model's step answers, error or next state, in every state and for whatever value
`P_O_DEST_ORDER` has. (The opcode values, the conditions, the read order, the wrap, the unmasked shifts and the error when
skipping are the spec's own decisions D1 to D4, D6 to D10, log entries 3 to 9.) -/
def Obligations.StepRefinesTheReferenceStep : Prop :=
  ∀ s : State,
    match step s with
    | .next t => (refOf s).step Config.oDestOrder = .ok (refOf t)
    | .fault (.unrecognizedExtendedOpcode ext w addr) => (refOf s).step Config.oDestOrder = .error ext.toNat w addr
    | .fault (.invalidAddressingMode _) => False
    | .refused _ => False
end

