-- ==== Sys2Proof/Laws/State.lean ====
section
/-! SUPPORT. One lemma per field per named update of the state, so that no proof unfolds a record update. -/

namespace Sys2Proof.Machine

section Updates

variable (s : State) (r : Reg) (v addr : Word) (flag : Bool)

@[simp] theorem setReg_regs : (s.setReg r v).regs = s.regs.set r v := rfl
@[simp] theorem setReg_pc : (s.setReg r v).pc = s.pc := rfl
@[simp] theorem setReg_sp : (s.setReg r v).sp = s.sp := rfl
@[simp] theorem setReg_o : (s.setReg r v).o = s.o := rfl
@[simp] theorem setReg_skip : (s.setReg r v).skip = s.skip := rfl
@[simp] theorem setReg_mem : (s.setReg r v).mem = s.mem := rfl
@[simp] theorem setReg_readMem (x : Word) : (s.setReg r v).readMem x = s.readMem x := rfl

@[simp] theorem setPc_regs : (s.setPc v).regs = s.regs := rfl
@[simp] theorem setPc_pc : (s.setPc v).pc = v := rfl
@[simp] theorem setPc_sp : (s.setPc v).sp = s.sp := rfl
@[simp] theorem setPc_o : (s.setPc v).o = s.o := rfl
@[simp] theorem setPc_skip : (s.setPc v).skip = s.skip := rfl
@[simp] theorem setPc_mem : (s.setPc v).mem = s.mem := rfl
@[simp] theorem setPc_getReg : (s.setPc v).getReg r = s.getReg r := rfl
@[simp] theorem setPc_readMem (x : Word) : (s.setPc v).readMem x = s.readMem x := rfl

@[simp] theorem setSp_regs : (s.setSp v).regs = s.regs := rfl
@[simp] theorem setSp_pc : (s.setSp v).pc = s.pc := rfl
@[simp] theorem setSp_sp : (s.setSp v).sp = v := rfl
@[simp] theorem setSp_o : (s.setSp v).o = s.o := rfl
@[simp] theorem setSp_skip : (s.setSp v).skip = s.skip := rfl
@[simp] theorem setSp_mem : (s.setSp v).mem = s.mem := rfl
@[simp] theorem setSp_getReg : (s.setSp v).getReg r = s.getReg r := rfl
@[simp] theorem setSp_readMem (x : Word) : (s.setSp v).readMem x = s.readMem x := rfl

@[simp] theorem setO_regs : (s.setO v).regs = s.regs := rfl
@[simp] theorem setO_pc : (s.setO v).pc = s.pc := rfl
@[simp] theorem setO_sp : (s.setO v).sp = s.sp := rfl
@[simp] theorem setO_o : (s.setO v).o = v := rfl
@[simp] theorem setO_skip : (s.setO v).skip = s.skip := rfl
@[simp] theorem setO_mem : (s.setO v).mem = s.mem := rfl
@[simp] theorem setO_getReg : (s.setO v).getReg r = s.getReg r := rfl
@[simp] theorem setO_readMem (x : Word) : (s.setO v).readMem x = s.readMem x := rfl

@[simp] theorem setSkip_regs : (s.setSkip flag).regs = s.regs := rfl
@[simp] theorem setSkip_pc : (s.setSkip flag).pc = s.pc := rfl
@[simp] theorem setSkip_sp : (s.setSkip flag).sp = s.sp := rfl
@[simp] theorem setSkip_o : (s.setSkip flag).o = s.o := rfl
@[simp] theorem setSkip_skip : (s.setSkip flag).skip = flag := rfl
@[simp] theorem setSkip_mem : (s.setSkip flag).mem = s.mem := rfl
@[simp] theorem setSkip_getReg : (s.setSkip flag).getReg r = s.getReg r := rfl
@[simp] theorem setSkip_readMem (x : Word) : (s.setSkip flag).readMem x = s.readMem x := rfl

@[simp] theorem writeMem_regs : (s.writeMem addr v).regs = s.regs := rfl
@[simp] theorem writeMem_pc : (s.writeMem addr v).pc = s.pc := rfl
@[simp] theorem writeMem_sp : (s.writeMem addr v).sp = s.sp := rfl
@[simp] theorem writeMem_o : (s.writeMem addr v).o = s.o := rfl
@[simp] theorem writeMem_skip : (s.writeMem addr v).skip = s.skip := rfl
@[simp] theorem writeMem_mem : (s.writeMem addr v).mem = s.mem.write addr.toNat v := rfl
@[simp] theorem writeMem_getReg : (s.writeMem addr v).getReg r = s.getReg r := rfl

@[simp] theorem incSp_eq : s.incSp = s.setSp (s.sp + 1) := rfl
@[simp] theorem decSp_eq : s.decSp = s.setSp (s.sp - 1) := rfl
@[simp] theorem nextWord_word : s.nextWord.1 = s.readMem s.pc := rfl
@[simp] theorem nextWord_state : s.nextWord.2 = s.setPc (s.pc + 1) := rfl

end Updates

/-- Reading a register file after a write. -/
theorem Regs.get_set (rs : Regs) (r q : Reg) (v : Word) : (rs.set r v).get q = if r = q then v else rs.get q := by
  cases r <;> cases q <;> rfl

/-- Reading a register after a register write. -/
@[simp] theorem setReg_getReg (s : State) (r q : Reg) (v : Word) :
    (s.setReg r v).getReg q = if r = q then v else s.getReg q := Regs.get_set s.regs r q v

/-- Two register files that read alike are equal. -/
theorem Regs.ext_get (rs qs : Regs) (h : ∀ r, rs.get r = qs.get r) : rs = qs := by
  obtain ⟨a, b, c, x, y, z, i, j⟩ := rs
  obtain ⟨a', b', c', x', y', z', i', j'⟩ := qs
  have ha : a = a' := h .a
  have hb : b = b' := h .b
  have hc : c = c' := h .c
  have hx : x = x' := h .x
  have hy : y = y' := h .y
  have hz : z = z' := h .z
  have hi : i = i' := h .i
  have hj : j = j' := h .j
  subst ha hb hc hx hy hz hi hj
  rfl

end Sys2Proof.Machine
end

