-- ==== Sys2Proof/Laws/Memory.lean ====
section
/-! SUPPORT. What the memory operations do (spec/20_memory.md R57, R60): a read after a write, and that every memory operation
keeps the canonical form. -/

namespace Sys2Proof.Machine

theorem read_dropCell (m : Memory) (addr x : Nat) :
    (m.dropCell addr).read x = if addr = x then Config.unlistedWord else m.read x := by
  induction m with
  | nil => simp [Memory.dropCell, Memory.read]
  | cons cell m ih =>
    obtain ⟨k, v⟩ := cell
    simp only [Memory.dropCell] at ih
    by_cases hk : k = addr
    · subst hk
      by_cases hx : k = x <;> simp_all [Memory.dropCell, Memory.read]
    · by_cases hx : k = x
      · subst hx
        simp [Memory.dropCell, Memory.read, hk, Ne.symm hk]
      · simpa [Memory.dropCell, Memory.read, hk, hx] using ih

theorem read_insertCell (m : Memory) (addr x : Nat) (v : Word) (fresh : ∀ cell ∈ m, cell.1 ≠ addr) :
    (m.insertCell addr v).read x = if addr = x then v else m.read x := by
  induction m with
  | nil => simp [Memory.insertCell, Memory.read]
  | cons cell m ih =>
    obtain ⟨k, u⟩ := cell
    have hk : k ≠ addr := fresh (k, u) (by simp)
    have ih := ih (fun cell h => fresh cell (by simp [h]))
    by_cases hlt : addr < k
    · simp [Memory.insertCell, Memory.read, hlt]
    · by_cases hx : k = x
      · subst hx
        simp [Memory.insertCell, Memory.read, hlt, Ne.symm hk]
      · simp [Memory.insertCell, Memory.read, hlt, hx, ih]

theorem dropCell_fresh (m : Memory) (addr : Nat) : ∀ cell ∈ m.dropCell addr, cell.1 ≠ addr := by
  intro cell h
  simpa using (List.mem_filter.mp h).2

/-- Writing a word changes that word and no other (R57); it holds of every list, canonical or not. -/
theorem read_write (m : Memory) (addr x : Nat) (v : Word) :
    (m.write addr v).read x = if addr = x then v else m.read x := by
  unfold Memory.write
  split
  · next h => rw [read_dropCell, h]
  · rw [read_insertCell _ _ _ _ (dropCell_fresh m addr), read_dropCell]
    split <;> rfl

/-- The machine's read after its write (R57, R60). -/
@[simp] theorem writeMem_readMem (s : State) (addr x v : Word) :
    (s.writeMem addr v).readMem x = if addr = x then v else s.readMem x := by
  simp only [State.readMem, writeMem_mem, read_write]
  by_cases h : addr = x
  · simp [h]
  · have : addr.toNat ≠ x.toNat := fun e => h (BitVec.eq_of_toNat_eq e)
    simp [h, this]

theorem dropCell_wf (m : Memory) (addr : Nat) (h : m.wf) : (m.dropCell addr).wf :=
  ⟨h.1.filter _, fun cell hc => h.2 cell (List.mem_filter.mp hc).1⟩

theorem mem_insertCell (m : Memory) (addr : Nat) (v : Word) (cell : Nat × Word) :
    cell ∈ m.insertCell addr v ↔ cell = (addr, v) ∨ cell ∈ m := by
  induction m with
  | nil => simp [Memory.insertCell]
  | cons c m ih =>
    obtain ⟨k, u⟩ := c
    by_cases hlt : addr < k
    · simp [Memory.insertCell, hlt]
    · simp [Memory.insertCell, hlt, ih]
      tauto

theorem insertCell_rising (m : Memory) (addr : Nat) (v : Word) (fresh : ∀ cell ∈ m, cell.1 ≠ addr)
    (h : m.Pairwise (fun p q => p.1 < q.1)) : (m.insertCell addr v).Pairwise (fun p q => p.1 < q.1) := by
  induction m with
  | nil => simp [Memory.insertCell]
  | cons c m ih =>
    obtain ⟨k, u⟩ := c
    have hk : k ≠ addr := fresh (k, u) (by simp)
    obtain ⟨hall, hrest⟩ := List.pairwise_cons.mp h
    by_cases hlt : addr < k
    · simp only [Memory.insertCell, hlt, if_true]
      refine List.pairwise_cons.mpr ⟨?_, h⟩
      intro cell hc
      rcases List.mem_cons.mp hc with rfl | hc
      · exact hlt
      · exact lt_trans hlt (hall cell hc)
    · simp only [Memory.insertCell, hlt, if_false]
      refine List.pairwise_cons.mpr ⟨?_, ih (fun cell hc => fresh cell (by simp [hc])) hrest⟩
      intro cell hc
      rcases (mem_insertCell m addr v cell).mp hc with rfl | hc
      · show k < addr
        omega
      · exact hall cell hc

/-- A write inside the address space keeps the canonical form. -/
theorem write_wf (m : Memory) (addr : Nat) (v : Word) (inside : addr < Config.memoryWords) (h : m.wf) :
    (m.write addr v).wf := by
  have hdrop := dropCell_wf m addr h
  unfold Memory.write
  split
  · exact hdrop
  · next hv =>
    refine ⟨insertCell_rising _ _ _ (dropCell_fresh m addr) hdrop.1, fun cell hc => ?_⟩
    rcases (mem_insertCell _ addr v cell).mp hc with rfl | hc
    · exact ⟨inside, hv⟩
    · exact hdrop.2 cell hc

/-- Every 16-bit address is inside the address space, so the machine's write keeps the canonical form. -/
theorem writeMem_wf (s : State) (addr v : Word) (h : s.mem.wf) : (s.writeMem addr v).mem.wf :=
  write_wf s.mem addr.toNat v addr.isLt h

/-- What loading leaves at every address: the image's word where the image covers it, else what was there (R12). -/
theorem read_load (image : List Word) (m : Memory) (addr x : Nat) :
    (m.load addr image).read x =
      if addr ≤ x ∧ x < addr + image.length then image.getD (x - addr) 0 else m.read x := by
  induction image generalizing m addr with
  | nil => simp [Memory.load]
  | cons v vs ih =>
    rw [Memory.load, ih, read_write]
    by_cases hx : x = addr
    · subst hx
      simp
    · by_cases h : addr + 1 ≤ x ∧ x < addr + 1 + vs.length
      · have h' : addr ≤ x ∧ x < addr + (v :: vs).length := by simp; omega
        obtain ⟨n, hn⟩ : ∃ n, x - addr = n + 1 := ⟨x - addr - 1, by omega⟩
        have hn' : x - (addr + 1) = n := by omega
        rw [if_pos h, if_pos h', hn, hn']
        rfl
      · have h' : ¬(addr ≤ x ∧ x < addr + (v :: vs).length) := by simp; omega
        rw [if_neg h, if_neg h', if_neg (Ne.symm hx)]

/-- Loading words that end inside the address space keeps the canonical form (R12). -/
theorem load_wf (image : List Word) (m : Memory) (addr : Nat) (inside : addr + image.length ≤ Config.memoryWords)
    (h : m.wf) : (m.load addr image).wf := by
  induction image generalizing m addr with
  | nil => exact h
  | cons v vs ih =>
    simp only [List.length_cons] at inside
    exact ih _ _ (by omega) (write_wf m addr v (by omega) h)

end Sys2Proof.Machine
end

