-- ==== Sys2Proof/Laws/Operands.lean ====
section
/-! SUPPORT. What resolving an operand, writing a location, and the phases before the operation can do
(spec/40_cycle_and_operands.md R102 to R126). -/

namespace Sys2Proof.Machine

/-- Resolution changes PC and SP only, by the operand's own amounts (R104 to R116). -/
theorem resolve_state (s : State) (p : Operand) :
    (s.resolve p).2 = (s.setPc (s.pc + nextWords p)).setSp (s.sp + stackMove p) := by
  cases p <;> simp [State.resolve, nextWords, stackMove, State.setPc, State.setSp, BitVec.sub_eq_add_neg]

@[simp] theorem resolve_regs (s : State) (p : Operand) : (s.resolve p).2.regs = s.regs := by rw [resolve_state]; rfl
@[simp] theorem resolve_pc (s : State) (p : Operand) : (s.resolve p).2.pc = s.pc + nextWords p := by
  rw [resolve_state]; rfl
@[simp] theorem resolve_sp (s : State) (p : Operand) : (s.resolve p).2.sp = s.sp + stackMove p := by
  rw [resolve_state]; rfl
@[simp] theorem resolve_o (s : State) (p : Operand) : (s.resolve p).2.o = s.o := by rw [resolve_state]; rfl
@[simp] theorem resolve_skip (s : State) (p : Operand) : (s.resolve p).2.skip = s.skip := by rw [resolve_state]; rfl
@[simp] theorem resolve_mem (s : State) (p : Operand) : (s.resolve p).2.mem = s.mem := by rw [resolve_state]; rfl
@[simp] theorem resolve_getReg (s : State) (p : Operand) (r : Reg) : (s.resolve p).2.getReg r = s.getReg r := by
  rw [resolve_state]; rfl
@[simp] theorem resolve_readMem (s : State) (p : Operand) (x : Word) : (s.resolve p).2.readMem x = s.readMem x := by
  rw [resolve_state]; rfl

section WriteLoc

variable (s : State) (loc : Loc) (v : Word)

@[simp] theorem writeLoc_getReg (r : Reg) : (s.writeLoc loc v).getReg r = if loc = .reg r then v else s.getReg r := by
  cases loc <;> simp [State.writeLoc]
@[simp] theorem writeLoc_readMem (x : Word) :
    (s.writeLoc loc v).readMem x = if loc = .mem x then v else s.readMem x := by
  cases loc <;> simp [State.writeLoc]
@[simp] theorem writeLoc_sp : (s.writeLoc loc v).sp = if loc = .sp then v else s.sp := by
  cases loc <;> simp [State.writeLoc]
@[simp] theorem writeLoc_pc : (s.writeLoc loc v).pc = if loc = .pc then v else s.pc := by
  cases loc <;> simp [State.writeLoc]
@[simp] theorem writeLoc_o : (s.writeLoc loc v).o = if loc = .o then v else s.o := by
  cases loc <;> simp [State.writeLoc]
@[simp] theorem writeLoc_skip : (s.writeLoc loc v).skip = s.skip := by
  cases loc <;> simp [State.writeLoc]

theorem writeLoc_wf (h : s.mem.wf) : (s.writeLoc loc v).mem.wf := by
  cases loc with
  | mem addr => exact writeMem_wf s addr v h
  | _ => exact h

end WriteLoc

/-- Under `DestThenO` the result is written first and O after it (R126). -/
theorem writeResult_destThenO (s : State) (la : Loc) (out : AluOut) :
    s.writeResult .destThenO la out = (s.writeLoc la out.result).setO out.overflow := by
  unfold State.writeResult
  split
  · next h => subst h; rfl
  · rfl

/-- Under `OThenDest` O is written first and the result after it (R126). -/
theorem writeResult_oThenDest (s : State) (la : Loc) (out : AluOut) :
    s.writeResult .oThenDest la out = (s.setO out.overflow).writeLoc la out.result := by
  unfold State.writeResult
  split
  · next h => subst h; rfl
  · next h => cases la <;> first | rfl | exact absurd rfl h

section WriteResult

variable (s : State) (order : ODestOrder) (la : Loc) (out : AluOut)

@[simp] theorem writeResult_getReg (r : Reg) :
    (s.writeResult order la out).getReg r = if la = .reg r then out.result else s.getReg r := by
  unfold State.writeResult; split <;> simp_all
@[simp] theorem writeResult_readMem (x : Word) :
    (s.writeResult order la out).readMem x = if la = .mem x then out.result else s.readMem x := by
  unfold State.writeResult; split <;> simp_all
@[simp] theorem writeResult_sp : (s.writeResult order la out).sp = if la = .sp then out.result else s.sp := by
  unfold State.writeResult; split <;> simp_all
@[simp] theorem writeResult_pc : (s.writeResult order la out).pc = if la = .pc then out.result else s.pc := by
  unfold State.writeResult; split <;> simp_all
@[simp] theorem writeResult_o :
    (s.writeResult order la out).o = if la = .o then survivingO order out else out.overflow := by
  unfold State.writeResult; split <;> simp_all
@[simp] theorem writeResult_skip : (s.writeResult order la out).skip = s.skip := by
  unfold State.writeResult; split <;> simp_all

theorem writeResult_wf (h : s.mem.wf) : (s.writeResult order la out).mem.wf := by
  unfold State.writeResult
  split
  · exact h
  · exact writeLoc_wf s la out.result h

end WriteResult

section Phases

variable (a b : Operand) (s : State)

/-- The state after both operands are resolved: PC past every next word, SP moved by both, SKIP cleared, the rest as before
(R120 to R124). -/
theorem resolveBoth_after :
    (resolveBoth a b s).after =
      ((s.setPc (s.pc + nextWords a + nextWords b)).setSp (s.sp + stackMove a + stackMove b)).setSkip false := by
  simp only [resolveBoth, resolve_state]
  rfl

@[simp] theorem resolveBoth_skipping : (resolveBoth a b s).skipping = s.skip := resolve_skip s a
@[simp] theorem resolveBoth_regs : (resolveBoth a b s).after.regs = s.regs := by rw [resolveBoth_after]; rfl
@[simp] theorem resolveBoth_getReg (r : Reg) : (resolveBoth a b s).after.getReg r = s.getReg r := by
  rw [resolveBoth_after]; rfl
@[simp] theorem resolveBoth_pc : (resolveBoth a b s).after.pc = s.pc + nextWords a + nextWords b := by
  rw [resolveBoth_after]; rfl
@[simp] theorem resolveBoth_sp : (resolveBoth a b s).after.sp = s.sp + stackMove a + stackMove b := by
  rw [resolveBoth_after]; rfl
@[simp] theorem resolveBoth_o : (resolveBoth a b s).after.o = s.o := by rw [resolveBoth_after]; rfl
@[simp] theorem resolveBoth_skip : (resolveBoth a b s).after.skip = false := by rw [resolveBoth_after]; rfl
@[simp] theorem resolveBoth_mem : (resolveBoth a b s).after.mem = s.mem := by rw [resolveBoth_after]; rfl
@[simp] theorem resolveBoth_readMem (x : Word) : (resolveBoth a b s).after.readMem x = s.readMem x := by
  rw [resolveBoth_after]; rfl

/-- The state after the single operand is resolved (R123). -/
theorem resolveOne_after :
    (resolveOne b s).after = ((s.setPc (s.pc + nextWords b)).setSp (s.sp + stackMove b)).setSkip false := by
  simp only [resolveOne, resolve_state]
  rfl

@[simp] theorem resolveOne_skipping : (resolveOne b s).skipping = s.skip := rfl
@[simp] theorem resolveOne_regs : (resolveOne b s).after.regs = s.regs := by rw [resolveOne_after]; rfl
@[simp] theorem resolveOne_getReg (r : Reg) : (resolveOne b s).after.getReg r = s.getReg r := by
  rw [resolveOne_after]; rfl
@[simp] theorem resolveOne_pc : (resolveOne b s).after.pc = s.pc + nextWords b := by rw [resolveOne_after]; rfl
@[simp] theorem resolveOne_sp : (resolveOne b s).after.sp = s.sp + stackMove b := by rw [resolveOne_after]; rfl
@[simp] theorem resolveOne_o : (resolveOne b s).after.o = s.o := by rw [resolveOne_after]; rfl
@[simp] theorem resolveOne_skip : (resolveOne b s).after.skip = false := by rw [resolveOne_after]; rfl
@[simp] theorem resolveOne_mem : (resolveOne b s).after.mem = s.mem := by rw [resolveOne_after]; rfl
@[simp] theorem resolveOne_readMem (x : Word) : (resolveOne b s).after.readMem x = s.readMem x := by
  rw [resolveOne_after]; rfl

end Phases

end Sys2Proof.Machine
end

