-- ==== Sys2Proof/Laws/Step.lean ====
section
/-! SUPPORT. What one step can do, said once: a shape per family, the shape of every instruction, and the inversion of `step`
(spec/40_cycle_and_operands.md R100, R122, R123). -/

namespace Sys2Proof.Machine

section Shapes

variable (a b : Operand) (s : State)

/-- A basic step always completes (R122). -/
theorem basicStep_eq (operation : Loc → Word → Word → State → State) :
    basicStep a b operation s =
      .next (if s.skip then (resolveBoth a b s).after
        else operation (resolveBoth a b s).dest (resolveBoth a b s).destValue (resolveBoth a b s).sourceValue
          (resolveBoth a b s).after) := by
  cases h : s.skip <;> simp [basicStep, h]

/-- An extended step always completes (R123). -/
theorem extendedStep_eq (operation : Word → State → State) :
    extendedStep b operation s =
      .next (if s.skip then (resolveOne b s).after else operation (resolveOne b s).value (resolveOne b s).after) := by
  cases h : s.skip <;> simp [extendedStep, h]

/-- An operation that writes its destination and O (R122, R126). -/
theorem resultStep_eq (alu : Word → Word → AluOut) :
    resultStep alu a b s =
      .next (if s.skip then (resolveBoth a b s).after
        else (resolveBoth a b s).after.writeResult Config.oDestOrder (resolveBoth a b s).dest
          (alu (resolveBoth a b s).destValue (resolveBoth a b s).sourceValue)) := basicStep_eq a b s _

/-- An operation that writes its destination only (R122). -/
theorem logicStep_eq (alu : Word → Word → Word) :
    logicStep alu a b s =
      .next (if s.skip then (resolveBoth a b s).after
        else (resolveBoth a b s).after.writeLoc (resolveBoth a b s).dest
          (alu (resolveBoth a b s).destValue (resolveBoth a b s).sourceValue)) := basicStep_eq a b s _

/-- A conditional writes SKIP only (R181). -/
theorem conditionalStep_eq (cond : Word → Word → Bool) :
    conditionalStep cond a b s =
      .next (if s.skip then (resolveBoth a b s).after
        else (resolveBoth a b s).after.setSkip
          (!cond (resolveBoth a b s).destValue (resolveBoth a b s).sourceValue)) := basicStep_eq a b s _

/-- JSR pushes and jumps (R201). -/
theorem execJsr_eq :
    execJsr b s =
      .next (if s.skip then (resolveOne b s).after
        else ((resolveOne b s).after.pushWord (resolveOne b s).after.pc).setPc (resolveOne b s).value) :=
  extendedStep_eq b s _

end Shapes

/-- Every instruction completes in one of four ways (R122, R123): a result and O, a result alone, SKIP alone, or JSR. -/
theorem exec_shape (i : Instr) (s : State) :
    (∃ a b alu, exec i s = resultStep alu a b s) ∨ (∃ a b alu, exec i s = logicStep alu a b s) ∨
    (∃ a b cond, exec i s = conditionalStep cond a b s) ∨ (∃ b, exec i s = execJsr b s) := by
  cases i with
  | set a b => exact .inl ⟨a, b, aluSet, rfl⟩
  | add a b => exact .inl ⟨a, b, aluAdd, rfl⟩
  | sub a b => exact .inl ⟨a, b, aluSub, rfl⟩
  | mul a b => exact .inl ⟨a, b, aluMul, rfl⟩
  | div a b => exact .inl ⟨a, b, aluDiv, rfl⟩
  | mod a b => exact .inl ⟨a, b, aluMod, rfl⟩
  | shl a b => exact .inl ⟨a, b, aluShl, rfl⟩
  | shr a b => exact .inl ⟨a, b, aluShr, rfl⟩
  | and a b => exact .inr (.inl ⟨a, b, aluAnd, rfl⟩)
  | or a b => exact .inr (.inl ⟨a, b, aluOr, rfl⟩)
  | xor a b => exact .inr (.inl ⟨a, b, aluXor, rfl⟩)
  | ife a b => exact .inr (.inr (.inl ⟨a, b, condEqual, rfl⟩))
  | ifn a b => exact .inr (.inr (.inl ⟨a, b, condNotEqual, rfl⟩))
  | ifg a b => exact .inr (.inr (.inl ⟨a, b, condGreater, rfl⟩))
  | ifb a b => exact .inr (.inr (.inl ⟨a, b, condAnyBit, rfl⟩))
  | jsr b => exact .inr (.inr (.inr ⟨b, rfl⟩))

/-- Every instruction completes (R100: no stall, no wait, no halt state). -/
theorem exec_completes (i : Instr) (s : State) : ∃ t, exec i s = .next t := by
  rcases exec_shape i s with ⟨a, b, alu, h⟩ | ⟨a, b, alu, h⟩ | ⟨a, b, cond, h⟩ | ⟨b, h⟩
  · exact ⟨_, h.trans (resultStep_eq a b s alu)⟩
  · exact ⟨_, h.trans (logicStep_eq a b s alu)⟩
  · exact ⟨_, h.trans (conditionalStep_eq a b s cond)⟩
  · exact ⟨_, h.trans (execJsr_eq b s)⟩

/-- Placing words changes memory only, and keeps its canonical form. -/
theorem placeWords_frame (words : List Word) (addr : Word) (s : State) :
    ∃ m, s.placeWords addr words = { s with mem := m } ∧ (s.mem.wf → m.wf) := by
  induction words generalizing addr s with
  | nil => exact ⟨s.mem, rfl, id⟩
  | cons v vs ih =>
    obtain ⟨m, hm, hwf⟩ := ih (addr + 1) (s.writeMem addr v)
    exact ⟨m, hm, fun h => hwf (writeMem_wf s addr v h)⟩

/-- Placing an instruction where the next step fetches it changes memory only. -/
theorem withFetchWord_frame (s : State) (nbits w : Nat) :
    ∃ m, s.withFetchWord nbits w = { s with mem := m } ∧ (s.mem.wf → m.wf) := placeWords_frame _ _ s

/-- What fetching can answer: the decoded instruction with PC past its word, or the step error of the word (R118, R221). -/
theorem fetchInstr_cases (s : State) :
    (∃ i, decode (s.readMem s.pc) = .ok i ∧ fetchInstr s = .ok (i, s.setPc (s.pc + 1))) ∨
    (∃ e, decode (s.readMem s.pc) = .error e ∧ fetchInstr s = .error (raiseStepError e (s.readMem s.pc) s.pc)) := by
  unfold fetchInstr
  simp only [nextWord_word, nextWord_state]
  cases h : decode (s.readMem s.pc) with
  | ok i => exact .inl ⟨i, rfl, rfl⟩
  | error e => exact .inr ⟨e, rfl, rfl⟩

/-- What a step can answer: the meaning of the decoded instruction on the fetched state, or the step error (R100, R220). -/
theorem step_cases (s : State) :
    (∃ i, decode (s.readMem s.pc) = .ok i ∧ step s = exec i (s.setPc (s.pc + 1))) ∨
    (∃ e, decode (s.readMem s.pc) = .error e ∧ step s = .fault (raiseStepError e (s.readMem s.pc) s.pc)) := by
  rcases fetchInstr_cases s with ⟨i, hd, hf⟩ | ⟨e, hd, hf⟩
  · exact .inl ⟨i, hd, by simp [step, hf]⟩
  · exact .inr ⟨e, hd, by simp [step, hf]⟩

end Sys2Proof.Machine
end

