-- ==== Sys2Proof/Laws/AfterError.lean ====
section
/-! SUPPORT. What the host can find after a step error, said once (spec/60_exceptions.md R223). -/

namespace Sys2Proof.Machine

/-- The states an aborted fetch may leave are exactly those that differ at most by PC one further and SKIP cleared (R223). -/
theorem mem_abortedFetchStates (s t : State) :
    t ∈ abortedFetchStates s ↔
      ∃ pc skip, t = { s with pc := pc, skip := skip } ∧ (pc = s.pc ∨ pc = s.pc + 1) ∧ (skip = s.skip ∨ skip = false) := by
  simp only [abortedFetchStates, List.mem_cons, List.not_mem_nil, or_false]
  constructor
  · rintro (rfl | rfl | rfl | rfl)
    · exact ⟨t.pc, t.skip, rfl, .inl rfl, .inl rfl⟩
    · exact ⟨s.pc, false, rfl, .inl rfl, .inr rfl⟩
    · exact ⟨s.pc + 1, s.skip, rfl, .inr rfl, .inl rfl⟩
    · exact ⟨s.pc + 1, false, rfl, .inr rfl, .inr rfl⟩
  · rintro ⟨pc, skip, rfl, rfl | rfl, rfl | rfl⟩
    · exact .inl rfl
    · exact .inr (.inl rfl)
    · exact .inr (.inr (.inl rfl))
    · exact .inr (.inr (.inr rfl))

/-- Every step error may leave the state as it was: the relation is never empty (R223). -/
theorem stateAfterError_self (f : Fault) (s : State) : stateAfterError f s s := by
  cases f with
  | unrecognizedExtendedOpcode ext w addr => exact List.mem_cons_self
  | invalidAddressingMode d => exact fun _ _ => rfl

/-- A skipped step could write no memory word (R124). -/
theorem not_stepCouldWrite_of_skip (s : State) (h : s.skip = true) (addr : Word) : ¬stepCouldWrite s addr := by
  rintro ⟨i, t, ht, hne⟩
  rcases exec_shape i s.nextWord.2 with ⟨a, b, alu, he⟩ | ⟨a, b, alu, he⟩ | ⟨a, b, cond, he⟩ | ⟨b, he⟩
  · rw [he, resultStep_eq] at ht; injection ht with ht; subst ht; simp [h] at hne
  · rw [he, logicStep_eq] at ht; injection ht with ht; subst ht; simp [h] at hne
  · rw [he, conditionalStep_eq] at ht; injection ht with ht; subst ht; simp [h] at hne
  · rw [he, execJsr_eq] at ht; injection ht with ht; subst ht; simp [h] at hne

end Sys2Proof.Machine
end

