-- ==== Sys2Proof/Laws/Alu.lean ====
section
/-! SUPPORT. What each ALU operation computes, as one equation on words or on unsigned numbers (spec/41_move_arith.md R147). -/

namespace Sys2Proof.Machine

section Alu

variable (va vb : Word)

@[simp] theorem aluSet_result : (aluSet va vb).result = vb := rfl
@[simp] theorem aluSet_overflow : (aluSet va vb).overflow = 0 := rfl

/-- ADD's truncated sum is the sum of the words (R142). -/
theorem aluAdd_result : (aluAdd va vb).result = va + vb := by
  apply BitVec.eq_of_toNat_eq
  simp [aluAdd, trunc16, BitVec.toNat_add]

/-- SUB's truncated difference is the difference of the words (R143). -/
theorem aluSub_result : (aluSub va vb).result = va - vb := by
  apply BitVec.eq_of_toNat_eq
  simp [aluSub, truncInt16, BitVec.toNat_sub, BitVec.toNat_ofInt]
  omega

/-- SUB borrows exactly when the first value is smaller (R143). -/
theorem aluSub_overflow : (aluSub va vb).overflow = if va.toNat < vb.toNat then 0xFFFF else 0 := by
  have h : (va.toNat : Int) - (vb.toNat : Int) < 0 ↔ va.toNat < vb.toNat := by omega
  simp only [aluSub, h]

/-- MUL's two words are the whole 32-bit product (R144). -/
theorem aluMul_product :
    va.toNat * vb.toNat = (aluMul va vb).overflow.toNat * 65536 + (aluMul va vb).result.toNat := by
  have hlt : va.toNat * vb.toNat < 65536 * 65536 := Nat.mul_lt_mul'' va.isLt vb.isLt
  simp only [aluMul, trunc16, BitVec.toNat_ofNat, Nat.shiftRight_eq_div_pow]
  omega

/-- DIV by zero gives 0 and 0 (R145). -/
@[simp] theorem aluDiv_zero : aluDiv va 0 = { result := 0, overflow := 0 } := rfl

/-- MOD by zero gives 0 and 0 (R146). -/
@[simp] theorem aluMod_zero : aluMod va 0 = { result := 0, overflow := 0 } := rfl

/-- MOD clears O in every case (R146). -/
@[simp] theorem aluMod_overflow : (aluMod va vb).overflow = 0 := by
  unfold aluMod; split <;> rfl

/-- SHL as multiplication by a power of two (R160, R161). -/
theorem aluShl_toNat :
    (aluShl va vb).result.toNat = va.toNat * 2 ^ vb.toNat % 65536 ∧
    (aluShl va vb).overflow.toNat = va.toNat * 2 ^ vb.toNat / 65536 % 65536 := by
  simp [aluShl, trunc16, Nat.shiftLeft_eq, Nat.shiftRight_eq_div_pow]

/-- SHR as division by a power of two (R160, R162). -/
theorem aluShr_toNat :
    (aluShr va vb).result.toNat = va.toNat / 2 ^ vb.toNat ∧
    (aluShr va vb).overflow.toNat = va.toNat * 65536 / 2 ^ vb.toNat % 65536 := by
  have hlt : va.toNat / 2 ^ vb.toNat < 65536 := lt_of_le_of_lt (Nat.div_le_self _ _) va.isLt
  simp only [aluShr, trunc16, BitVec.toNat_ofNat, Nat.shiftLeft_eq, Nat.shiftRight_eq_div_pow]
  exact ⟨Nat.mod_eq_of_lt hlt, trivial⟩

end Alu

end Sys2Proof.Machine
end

