-- ==== Sys2Proof/Laws/PerInstr.lean ====
section
/-! SUPPORT. Families of lemmas with one lemma per constructor of Instr. EncodeMatchesTable: an instruction's word matches its
row of spec/opcode_table.json (its "mask" and "match"). -/

namespace Sys2Proof

section Fields

variable (op : BitVec 4) (a b : Descriptor)

/-- The opcode field of an instruction word (R71). -/
theorem opField_instructionWord : opField (instructionWord op a b) = op := by
  apply BitVec.eq_of_getElem_eq
  intro k hk
  have h4 : k < 16 := by omega
  have ha : k < 4 := hk
  have hb : k < 10 := by omega
  simp [opField, instructionWord, ha, hb, h4]

/-- The `a` field of an instruction word (R71). -/
theorem aField_instructionWord : aField (instructionWord op a b) = a := by
  apply BitVec.eq_of_getElem_eq
  intro k hk
  have h10 : 4 + k < 10 := by omega
  have h16 : 4 + k < 16 := by omega
  simp [aField, instructionWord, h10, h16, hk]

/-- The `b` field of an instruction word (R71). -/
theorem bField_instructionWord : bField (instructionWord op a b) = b := by
  apply BitVec.eq_of_getElem_eq
  intro k hk
  have h16 : 10 + k < 16 := by omega
  have hop : op.getLsbD (10 + k) = false := BitVec.getLsbD_of_ge op (10 + k) (by omega)
  have ha : a.getLsbD (10 + k - 4) = false := BitVec.getLsbD_of_ge a (10 + k - 4) (by omega)
  simp [bField, instructionWord, h16, hop, ha, hk]

end Fields

namespace Laws

/-- The "match" of the instruction's row: the opcode field, and for JSR the whole low ten bits. -/
def tableMatch : Instr → Word
  | .set _ _ => 0x0001
  | .add _ _ => 0x0002
  | .sub _ _ => 0x0003
  | .mul _ _ => 0x0004
  | .div _ _ => 0x0005
  | .mod _ _ => 0x0006
  | .shl _ _ => 0x0007
  | .shr _ _ => 0x0008
  | .and _ _ => 0x0009
  | .or _ _ => 0x000A
  | .xor _ _ => 0x000B
  | .ife _ _ => 0x000C
  | .ifn _ _ => 0x000D
  | .ifg _ _ => 0x000E
  | .ifb _ _ => 0x000F
  | .jsr _ => 0x0010

/-- The "mask" of the instruction's row. -/
def tableMask : Instr → Word
  | .set _ _ => 0x000F
  | .add _ _ => 0x000F
  | .sub _ _ => 0x000F
  | .mul _ _ => 0x000F
  | .div _ _ => 0x000F
  | .mod _ _ => 0x000F
  | .shl _ _ => 0x000F
  | .shr _ _ => 0x000F
  | .and _ _ => 0x000F
  | .or _ _ => 0x000F
  | .xor _ _ => 0x000F
  | .ife _ _ => 0x000F
  | .ifn _ _ => 0x000F
  | .ifg _ _ => 0x000F
  | .ifb _ _ => 0x000F
  | .jsr _ => 0x03FF

/-- The low four bits of a word, as a masked word. -/
theorem mask_opField (w : Word) : w &&& 0x000F = (opField w).setWidth 16 := by
  apply BitVec.eq_of_toNat_eq
  have h : w.toNat &&& 15 = w.toNat % 16 := Nat.and_two_pow_sub_one_eq_mod w.toNat 4
  simp only [opField, BitVec.toNat_and, BitVec.toNat_setWidth, BitVec.extractLsb'_toNat, Nat.shiftRight_zero]
  have hw := w.isLt
  show w.toNat &&& 15 = _
  omega

/-- The low ten bits of a word, as a masked word. -/
theorem mask_lowFields (w : Word) :
    w &&& (0x03FF : Word) = (aField w).setWidth 16 <<< 4 ||| (opField w).setWidth 16 := by
  apply BitVec.eq_of_getElem_eq
  intro k hk
  by_cases h4 : k < 4
  · have : k < 10 := by omega
    interval_cases k <;> simp [aField, opField]
  · interval_cases k <;> simp [aField, opField]

/-- Every instruction's word matches its row of the opcode table. -/
def EncodeMatchesTable.Statement (i : Instr) : Prop := encode i &&& tableMask i = tableMatch i

theorem basic_matches (op : BitVec 4) (a b : Descriptor) : instructionWord op a b &&& 0x000F = op.setWidth 16 := by
  rw [mask_opField, opField_instructionWord]

theorem EncodeMatchesTable.set (a b : Operand) : EncodeMatchesTable.Statement (.set a b) := basic_matches 0x1 _ _
theorem EncodeMatchesTable.add (a b : Operand) : EncodeMatchesTable.Statement (.add a b) := basic_matches 0x2 _ _
theorem EncodeMatchesTable.sub (a b : Operand) : EncodeMatchesTable.Statement (.sub a b) := basic_matches 0x3 _ _
theorem EncodeMatchesTable.mul (a b : Operand) : EncodeMatchesTable.Statement (.mul a b) := basic_matches 0x4 _ _
theorem EncodeMatchesTable.div (a b : Operand) : EncodeMatchesTable.Statement (.div a b) := basic_matches 0x5 _ _
theorem EncodeMatchesTable.mod (a b : Operand) : EncodeMatchesTable.Statement (.mod a b) := basic_matches 0x6 _ _
theorem EncodeMatchesTable.shl (a b : Operand) : EncodeMatchesTable.Statement (.shl a b) := basic_matches 0x7 _ _
theorem EncodeMatchesTable.shr (a b : Operand) : EncodeMatchesTable.Statement (.shr a b) := basic_matches 0x8 _ _
theorem EncodeMatchesTable.and (a b : Operand) : EncodeMatchesTable.Statement (.and a b) := basic_matches 0x9 _ _
theorem EncodeMatchesTable.or (a b : Operand) : EncodeMatchesTable.Statement (.or a b) := basic_matches 0xA _ _
theorem EncodeMatchesTable.xor (a b : Operand) : EncodeMatchesTable.Statement (.xor a b) := basic_matches 0xB _ _
theorem EncodeMatchesTable.ife (a b : Operand) : EncodeMatchesTable.Statement (.ife a b) := basic_matches 0xC _ _
theorem EncodeMatchesTable.ifn (a b : Operand) : EncodeMatchesTable.Statement (.ifn a b) := basic_matches 0xD _ _
theorem EncodeMatchesTable.ifg (a b : Operand) : EncodeMatchesTable.Statement (.ifg a b) := basic_matches 0xE _ _
theorem EncodeMatchesTable.ifb (a b : Operand) : EncodeMatchesTable.Statement (.ifb a b) := basic_matches 0xF _ _
theorem EncodeMatchesTable.jsr (b : Operand) : EncodeMatchesTable.Statement (.jsr b) := by
  show instructionWord 0x0 0x01 (encodeOperand b) &&& 0x03FF = 0x0010
  rw [mask_lowFields, aField_instructionWord, opField_instructionWord]
  rfl

end Laws

end Sys2Proof
end

