-- ==== Sys2Proof/Tests/Slice0.lean ====
section
/-! SUPPORT. Tests with expected values from spec/95_test_vectors.md (V-… and E… are its vectors) and from the encodings of
spec/30_encoding.md, and a witness for the hypotheses of every statement that has some. -/

namespace Sys2Proof.Tests

open Sys2Proof.Machine Sys2Proof.Claims

/-- The next state of an outcome, if it is one. -/
def nextOf : Host.Outcome State Fault Refusal → Option State
  | .next t => some t
  | .fault _ => none
  | .refused _ => none

/-- The fault of an outcome, if it is one. -/
def faultOf : Host.Outcome State Fault Refusal → Option Fault
  | .next _ => none
  | .fault f => some f
  | .refused _ => none

/-- Reset with words placed from address 0 on. -/
def withCode (words : List Word) : State := State.reset.placeWords 0 words

/-- One step from a state. -/
def after (s : State) : Option State := nextOf (step s)

/-! ### Well-formedness and encoding -/

theorem test_smallLit_31_ok : Operand.wellFormed (.smallLit 31) = true := by decide
theorem test_smallLit_32_refused : Operand.wellFormed (.smallLit 32) = false := by decide
theorem test_destination_refused : Instr.wellFormed (.set (.smallLit 32) (.reg .a)) = false := by decide
theorem test_source_refused : Instr.wellFormed (.ifb (.reg .a) (.smallLit 0xFFFF)) = false := by decide
theorem test_target_refused : Instr.wellFormed (.jsr (.smallLit 32)) = false := by decide

/-! One word for each constructor, its bits written out as b (six bits), a (six bits), op (four bits). -/

theorem test_decode_set : decode 0b100001_000000_0001 = .ok (.set (.reg .a) (.smallLit 1)) := rfl
theorem test_decode_add : decode 0b011000_011011_0010 = .ok (.add .sp .pop) := rfl
theorem test_decode_sub : decode 0b100001_011100_0011 = .ok (.sub .pc (.smallLit 1)) := rfl
theorem test_decode_mul : decode 0b011111_000000_0100 = .ok (.mul (.reg .a) .nextLit) := rfl
theorem test_decode_div : decode 0b001111_000111_0101 = .ok (.div (.reg .j) (.regMem .j)) := rfl
theorem test_decode_mod : decode 0b010000_010111_0110 = .ok (.mod (.regNextMem .j) (.regNextMem .a)) := rfl
theorem test_decode_shl : decode 0b011101_000001_0111 = .ok (.shl (.reg .b) .o) := rfl
theorem test_decode_shr : decode 0b111111_000010_1000 = .ok (.shr (.reg .c) (.smallLit 31)) := rfl
theorem test_decode_and : decode 0b000000_100000_1001 = .ok (.and (.smallLit 0) (.reg .a)) := rfl
theorem test_decode_or : decode 0b011111_001000_1010 = .ok (.or (.regMem .a) .nextLit) := rfl
theorem test_decode_xor : decode 0b000011_000100_1011 = .ok (.xor (.reg .y) (.reg .x)) := rfl
theorem test_decode_ife : decode 0b100000_011000_1100 = .ok (.ife .pop (.smallLit 0)) := rfl
theorem test_decode_ifn : decode 0b000110_011010_1101 = .ok (.ifn .push (.reg .i)) := rfl
theorem test_decode_ifg : decode 0b000101_011001_1110 = .ok (.ifg .peek (.reg .z)) := rfl
theorem test_decode_ifb : decode 0b011110_011101_1111 = .ok (.ifb .o .nextMem) := rfl
theorem test_decode_jsr : decode 0b011011_000001_0000 = .ok (.jsr .sp) := rfl
theorem test_decode_ext0_rejected : decode 0x0000 = .error (.unrecognizedExtendedOpcode 0) := rfl
theorem test_decode_ext2_rejected : decode 0b111111_000010_0000 = .error (.unrecognizedExtendedOpcode 2) := rfl
theorem test_encode_set : encode (.set .nextMem .nextLit) = 0x7DE1 := by decide
theorem test_encode_jsr : encode (.jsr (.reg .a)) = 0x0010 := by decide
theorem test_decodeTableWord : decodeTableWord 16 0x0010 = some (.jsr (.reg .a)) := by decide

/-! ### One step of each instruction, against the spec's vectors -/

-- E1
theorem test_set_from_reset :
    (after (State.reset.withFetchWord 16 0x8401)).map (fun t => (t.getReg .a, t.pc, t.o, t.sp)) = some (1, 1, 0, 0) := by
  decide
-- V-OPD-16: the first next word is a's
theorem test_set_two_next_words :
    (after (withCode [0x7DE1, 0x1000, 0x0020])).map (fun t => (t.readMem 0x1000, t.pc)) = some (0x20, 3) := by decide
-- V-OPD-18: the destination is read after the pop
theorem test_add_sp_pop :
    (after (((withCode [0x61B2]).setSp 0xFFFE).writeMem 0xFFFE 3)).map (fun t => (t.sp, t.o)) = some (2, 1) := by decide
-- V-ARI-5: a literal destination still writes O
theorem test_add_literal_destination :
    (after (withCode [0x7E12, 0xFFFF])).map (fun t => (t.pc, t.o)) = some (2, 1) := by decide
-- V-ARI-7
theorem test_sub_borrow :
    (after ((withCode [0x9403]).setReg .a 3)).map (fun t => (t.getReg .a, t.o)) = some (0xFFFE, 0xFFFF) := by decide
-- R91, R143: SUB PC, 1 is a one-instruction loop
theorem test_sub_pc_loops : (after (withCode [0x85C3])).map (fun t => (t.pc, t.o)) = some (0, 0) := by decide
-- V-ARI-9
theorem test_mul_high_word :
    (after (((withCode [0x0404]).setReg .a 0xFFFF).setReg .b 0xFFFF)).map (fun t => (t.getReg .a, t.o)) =
      some (1, 0xFFFE) := by decide
-- R144's example
theorem test_mul_next_literal :
    (after ((withCode [0x7C04, 0x0100]).setReg .a 0x1234)).map (fun t => (t.getReg .a, t.o)) = some (0x3400, 0x12) := by
  decide
-- V-ARI-17
theorem test_div_fraction :
    (after (((withCode [0x0405]).setReg .a 0xFFFF).setReg .b 2)).map (fun t => (t.getReg .a, t.o)) =
      some (0x7FFF, 0x8000) := by decide
-- V-ARI-14
theorem test_div_by_zero :
    (after (((withCode [0x8005]).setReg .a 5).setO 0x1234)).map (fun t => (t.getReg .a, t.o)) = some (0, 0) := by decide
-- V-ARI-19
theorem test_mod : (after ((withCode [0xC006]).setReg .a 0xFFFF)).map (fun t => (t.getReg .a, t.o)) = some (15, 0) := by
  decide
-- V-ARI-18
theorem test_mod_by_zero :
    (after (((withCode [0x8006]).setReg .a 5).setO 0x1234)).map (fun t => (t.getReg .a, t.o)) = some (0, 0) := by decide
-- V-SHL-3
theorem test_shl_20 :
    (after ((withCode [0xD007]).setReg .a 0x1234)).map (fun t => (t.getReg .a, t.o)) = some (0, 0x2340) := by decide
-- V-SHL-5: the count is not masked
theorem test_shl_32 :
    (after ((withCode [0x7C07, 0x0020]).setReg .a 1)).map (fun t => (t.getReg .a, t.o)) = some (0, 0) := by decide
-- V-SHR-3
theorem test_shr_4 :
    (after ((withCode [0x9008]).setReg .a 0x1234)).map (fun t => (t.getReg .a, t.o)) = some (0x0123, 0x4000) := by decide
-- V-SHR-7
theorem test_shr_31 :
    (after ((withCode [0xFC08]).setReg .a 0x8000)).map (fun t => (t.getReg .a, t.o)) = some (0, 1) := by decide
-- V-LOG-1
theorem test_and :
    (after ((((withCode [0x0409]).setReg .a 0xFF00).setReg .b 0x0FF0).setO 0x1234)).map
      (fun t => (t.getReg .a, t.o)) = some (0x0F00, 0x1234) := by decide
-- V-LOG-5: a literal destination, no effect
theorem test_and_literal_destination :
    (after (((withCode [0x0209]).setReg .a 0xFFFF).setO 0x1234)).map (fun t => (t.getReg .a, t.pc, t.o)) =
      some (0xFFFF, 1, 0x1234) := by decide
-- V-LOG-6
theorem test_or_memory :
    (after (((withCode [0x7C8A, 0x8000]).setReg .a 0x1000).writeMem 0x1000 1)).map
      (fun t => (t.readMem 0x1000, t.pc)) = some (0x8001, 2) := by decide
-- V-LOG-3
theorem test_xor :
    (after ((((withCode [0x040B]).setReg .a 0xFF00).setReg .b 0x0FF0).setO 0x1234)).map
      (fun t => (t.getReg .a, t.o)) = some (0xF0F0, 0x1234) := by decide
-- V-IF-18
theorem test_ife_false :
    (after (((withCode [0x840C]).setReg .a 2).setO 0x1234)).map (fun t => (t.skip, t.pc, t.o)) =
      some (true, 1, 0x1234) := by decide
-- V-IF-17: PC is compared after the whole instruction
theorem test_ife_pc : (after (withCode [0x85CC])).map (fun t => (t.skip, t.pc)) = some (false, 1) := by decide
-- V-IF-4, first step
theorem test_ifn_false : (after ((withCode [0x840D]).setReg .a 1)).map (fun t => t.skip) = some true := by decide
-- V-IF-7, first step: unsigned
theorem test_ifg_unsigned :
    (after (((withCode [0x040E]).setReg .a 0x7FFF).setReg .b 0x8000)).map (fun t => t.skip) = some true := by decide
-- V-IF-6, first step: strict
theorem test_ifg_strict :
    (after (((withCode [0x040E]).setReg .a 1).setReg .b 1)).map (fun t => t.skip) = some true := by decide
-- V-IF-8, first step
theorem test_ifb_true : (after ((withCode [0x880F]).setReg .a 6)).map (fun t => t.skip) = some false := by decide
-- V-IF-9, first step
theorem test_ifb_false : (after ((withCode [0x840F]).setReg .a 6)).map (fun t => t.skip) = some true := by decide
-- V-JSR-3: the operand's pop comes before the push
theorem test_jsr_pop :
    (after ((((State.reset.setPc 5).withFetchWord 16 0x6010).setSp 0xFFFE).writeMem 0xFFFE 0x1234)).map
      (fun t => (t.pc, t.sp, t.readMem 0xFFFE)) = some (0x1234, 0xFFFE, 6) := by decide
-- V-JSR-10
theorem test_jsr_skipped :
    (after (((State.reset.placeWords 5 [0x7C10, 0x0020]).setPc 5).setSkip true)).map
      (fun t => (t.pc, t.sp, t.skip)) = some (7, 0, false) := by decide

/-! ### Errors, order of the O writes, load -/

-- V-ERR-3
theorem test_error_ext3F :
    faultOf (step (withCode [0x03F0])) = some (.unrecognizedExtendedOpcode 0x3F 0x03F0 0) := by decide
-- V-ERR-5: raised although the step is skipped
theorem test_error_when_skipping :
    faultOf (step (State.reset.setSkip true)) = some (.unrecognizedExtendedOpcode 0 0 0) := by decide
-- V-OPD-23 and V-OPD-24
theorem test_set_o_under_both_orders :
    (State.reset.writeResult .destThenO .o (aluSet 9 5)).o = 0 ∧
    (State.reset.writeResult .oThenDest .o (aluSet 9 5)).o = 5 := by decide
-- V-OPD-25 and V-OPD-26
theorem test_add_o_under_both_orders :
    (State.reset.writeResult .destThenO .o (aluAdd 1 0xFFFF)).o = 1 ∧
    (State.reset.writeResult .oThenDest .o (aluAdd 1 0xFFFF)).o = 0 := by decide
-- V-RST-2, loaded state
theorem test_load_one_word :
    (nextOf (State.load [0x8401])).map (fun t => (t.readMem 0, t.readMem 1, t.pc)) = some (0x8401, 0, 0) := by decide
-- R31, R57: memory stays canonical when a word is written back to zero
theorem test_memory_write_zero : Memory.write (Memory.write [] 7 5) 7 0 = [] := by decide

-- R223: PC one further, SKIP cleared; a changed register is not among what the error may leave
theorem test_error_may_leave_pc_advanced :
    ({ State.reset with pc := 1 } ∈ abortedFetchStates { State.reset with skip := true }) ∧
    ({ State.reset with sp := 1 } ∉ abortedFetchStates State.reset) := by decide

/-! ### Witnesses: for each statement with hypotheses, a state and operands that meet them -/

theorem witness_DecodeOfEncodeIsTheInstruction : Instr.wellFormed (.set (.smallLit 31) (.smallLit 0)) = true := by decide
theorem witness_EncodeOfDecodeIsTheWord : decode 0xFC10 = .ok (.jsr (.smallLit 31)) := rfl
theorem witness_OnlyUnassignedExtendedWordsAreIllegal :
    ((0x0000 : Word).toNat % 16 = 0 ∧ (0x0000 : Word).toNat / 16 % 64 ≠ 1) ∧
    ((0xFC20 : Word).toNat % 16 = 0 ∧ (0xFC20 : Word).toNat / 16 % 64 ≠ 1) ∧
    ((0x0001 : Word).toNat % 16 ≠ 0 ∨ (0x0001 : Word).toNat / 16 % 64 = 1) ∧
    ((0xFC10 : Word).toNat % 16 ≠ 0 ∨ (0xFC10 : Word).toNat / 16 % 64 = 1) := by decide
theorem witness_NextWordDescriptors :
    decodeOperand 0x0F = .ok (.regMem .j) ∧ decodeOperand 0x10 = .ok (.regNextMem .a) ∧
    decodeOperand 0x17 = .ok (.regNextMem .j) ∧ decodeOperand 0x18 = .ok .pop ∧ decodeOperand 0x1D = .ok .o ∧
    decodeOperand 0x1E = .ok .nextMem ∧ decodeOperand 0x1F = .ok .nextLit ∧
    decodeOperand 0x20 = .ok (.smallLit 0) := ⟨rfl, rfl, rfl, rfl, rfl, rfl, rfl, rfl⟩
theorem witness_StepRunsTheDecodedInstruction :
    decode ((withCode [0x8401]).readMem (withCode [0x8401]).pc) = .ok (.set (.reg .a) (.smallLit 1)) := rfl
theorem witness_UnassignedExtendedWordIsAStepError :
    ((State.reset.readMem State.reset.pc).toNat % 16 = 0 ∧ (State.reset.readMem State.reset.pc).toNat / 16 % 64 ≠ 1) ∧
    step (withCode [0x03F0]) = .fault (.unrecognizedExtendedOpcode 0x3F 0x03F0 0) := ⟨by decide, rfl⟩
theorem witness_StepErrorChangesAtMostPcAndSkip :
    step { State.reset with skip := true } = .fault (.unrecognizedExtendedOpcode 0 0 0) ∧
    stateAfterError (.unrecognizedExtendedOpcode 0 0 0) { State.reset with skip := true } { State.reset with pc := 1 } ∧
    (1 : Word) = State.reset.pc + 1 := ⟨rfl, test_error_may_leave_pc_advanced.1, by decide⟩
theorem witness_RunEndsAtItsFirstStepError :
    runUntil (haltAt 9) 3 (withCode [0x8401]) = .fault (.unrecognizedExtendedOpcode 0 0 1) ∧
    runUntil (haltAt 9) 1 (withCode [0x8401]) = .next ((((withCode [0x8401]).setPc 1).setReg .a 1).setO 0) := ⟨rfl, rfl⟩
theorem witness_NothingAnInstructionDoesIsAnError :
    State.reset.skip = false ∧ sourceNat (.reg .a) (.smallLit 0) State.reset = 0 := by decide
theorem witness_LoadStoresTheImageAtZero :
    ([] : List Word).length ≤ 65536 ∧ (List.replicate 65536 (7 : Word)).length ≤ 65536 :=
  ⟨by decide, by rw [List.length_replicate]⟩
theorem witness_OverlongImageIsRefused : 65536 < (List.replicate 65537 (7 : Word)).length := by
  rw [List.length_replicate]; decide

/-- An armed state, for the statements whose hypothesis is that SKIP is clear: its registers and SP are not zero, and its
memory is not empty. -/
def armedState : State := (((withCode [0x85C3, 0x1000, 0x0002]).setReg .a 0x8001).setReg .b 3).setSp 0xFFF0

theorem witness_SetCopiesAndClearsO :
    (0x8401 : Word).toNat % 16 = 1 ∧ (0xFFF1 : Word).toNat % 16 = 1 ∧ armedState.skip = false := by decide
theorem witness_AddWritesSumAndCarry :
    armedState.skip = false ∧ destNat (.reg .a) (.reg .a) armedState = 0x8001 := by decide
theorem witness_SubWritesDifferenceAndBorrow :
    armedState.skip = false ∧ destNat (.reg .b) (.reg .a) armedState < sourceNat (.reg .b) (.reg .a) armedState := by
  decide
theorem witness_MulWritesLowAndHighWord :
    armedState.skip = false ∧ sourceNat (.reg .a) (.reg .b) armedState = 3 := by decide
theorem witness_DivWritesQuotientAndFraction :
    armedState.skip = false ∧ sourceNat (.reg .a) (.reg .c) armedState = 0 ∧
    sourceNat (.reg .a) (.reg .b) armedState = 3 := by decide
theorem witness_ModWritesRemainderAndClearsO :
    armedState.skip = false ∧ sourceNat (.reg .a) (.reg .c) armedState = 0 ∧
    sourceNat (.reg .a) (.reg .b) armedState = 3 := by decide
theorem witness_ShlWritesShiftedAndLostBits :
    armedState.skip = false ∧ sourceNat (.reg .a) (.smallLit 16) armedState = 16 := by decide
theorem witness_ShrWritesShiftedAndLostBits :
    armedState.skip = false ∧ sourceNat (.reg .a) (.reg .a) armedState = 0x8001 := by decide
theorem witness_ShiftBy32OrMoreGivesZero :
    armedState.skip = false ∧ 32 ≤ sourceNat (.reg .a) (.reg .c) (armedState.setReg .c 32) ∧
    32 ≤ sourceNat (.reg .a) (.reg .a) armedState := by decide
theorem witness_AndWritesCommonBits :
    armedState.skip = false ∧ (resolveBoth (.reg .a) (.reg .b) armedState).dest = .reg .a := by decide
theorem witness_OrWritesEitherBits :
    armedState.skip = false ∧ (resolveBoth .push (.reg .b) armedState).dest = .mem 0xFFEF := by decide
theorem witness_XorWritesDifferingBits :
    armedState.skip = false ∧ (resolveBoth .o (.reg .b) armedState).dest = .o := by decide
theorem witness_IfeSkipsUnlessEqual :
    armedState.skip = false ∧ destNat (.reg .a) (.reg .b) armedState ≠ sourceNat (.reg .a) (.reg .b) armedState := by
  decide
theorem witness_IfnSkipsWhenEqual :
    armedState.skip = false ∧ destNat (.reg .a) (.reg .a) armedState = sourceNat (.reg .a) (.reg .a) armedState := by
  decide
theorem witness_IfgSkipsUnlessGreater :
    armedState.skip = false ∧ destNat (.reg .b) (.reg .a) armedState ≤ sourceNat (.reg .b) (.reg .a) armedState := by
  decide
theorem witness_IfbSkipsWithoutCommonBit :
    armedState.skip = false ∧ destNat (.reg .a) (.smallLit 2) armedState = 0x8001 := by decide
theorem witness_JsrPushesReturnAddressAndJumps :
    armedState.skip = false ∧ (resolveOne .pop armedState).after.sp = 0xFFF1 := by decide
theorem witness_SkippedStepMakesOnlyAddressingSideEffects :
    (IsNext (.set .nextMem .nextLit) ((withCode [0x7DE1]).setSkip true) ∧ ((withCode [0x7DE1]).setSkip true).skip = true) ∧
    (IsNext (.jsr .pop) ((withCode [0x6010]).setSkip true) ∧ ((withCode [0x6010]).setSkip true).skip = true) :=
  ⟨⟨rfl, rfl⟩, ⟨rfl, rfl⟩⟩
theorem witness_SkipLastsExactlyOneStep :
    (IsNext (.ifn (.reg .a) (.reg .a)) (withCode [0x000D]) ∧
      ∃ t, step (withCode [0x000D]) = .next t ∧ t.skip = true) ∧
    (((withCode [0x000D]).setSkip true).skip = true ∧ ∃ t, step ((withCode [0x000D]).setSkip true) = .next t) :=
  ⟨⟨rfl, _, rfl, rfl⟩, rfl, _, rfl⟩
theorem witness_PcMovesPastTheWholeInstruction :
    (IsNext (.set .nextMem .nextLit) (withCode [0x7DE1]) ∧ (∃ t, step (withCode [0x7DE1]) = .next t) ∧
      destinationLoc (.set .nextMem .nextLit) (withCode [0x7DE1]) ≠ some .pc ∧ ¬isJsr (.set .nextMem .nextLit)) ∧
    (IsNext (.jsr .nextLit) ((withCode [0x7C10]).setSkip true) ∧ (∃ t, step ((withCode [0x7C10]).setSkip true) = .next t) ∧
      ((withCode [0x7C10]).setSkip true).skip = true) :=
  ⟨⟨rfl, ⟨_, rfl⟩, by decide, fun ⟨_, h⟩ => Instr.noConfusion h⟩, rfl, ⟨_, rfl⟩, rfl⟩
theorem witness_SpChangesOnlyByStackModesJsrOrAsDestination :
    (IsNext (.set .push .pop) (withCode [0x61A1]) ∧ (∃ t, step (withCode [0x61A1]) = .next t) ∧
      destinationLoc (.set .push .pop) (withCode [0x61A1]) ≠ some .sp ∧ ¬isJsr (.set .push .pop)) ∧
    (IsNext (.jsr .push) (withCode [0x6810]) ∧ (∃ t, step (withCode [0x6810]) = .next t) ∧
      (withCode [0x6810]).skip = false ∧ isJsr (.jsr .push)) ∧
    (IsNext (.jsr .pop) ((withCode [0x6010]).setSkip true) ∧ (∃ t, step ((withCode [0x6010]).setSkip true) = .next t) ∧
      ((withCode [0x6010]).setSkip true).skip = true) :=
  ⟨⟨rfl, ⟨_, rfl⟩, by decide, fun ⟨_, h⟩ => Instr.noConfusion h⟩, ⟨rfl, ⟨_, rfl⟩, rfl, _, rfl⟩, rfl, ⟨_, rfl⟩, rfl⟩
theorem witness_OChangesOnlyByItsWriters :
    (IsNext (.add (.reg .a) (.reg .a)) ((withCode [0x0002]).setReg .a 0x8001) ∧
      ∃ t, step ((withCode [0x0002]).setReg .a 0x8001) = .next t ∧ t.o ≠ 0) ∧
    (IsNext (.or .o (.smallLit 1)) (withCode [0x85DA]) ∧ ∃ t, step (withCode [0x85DA]) = .next t ∧ t.o ≠ 0) :=
  ⟨⟨rfl, _, rfl, by decide⟩, rfl, _, rfl, by decide⟩
theorem witness_RegisterChangesOnlyAsDestination :
    IsNext (.set (.reg .a) (.smallLit 1)) (withCode [0x8401]) ∧
      ∃ t, step (withCode [0x8401]) = .next t ∧ t.getReg .a ≠ (withCode [0x8401]).getReg .a := ⟨rfl, _, rfl, by decide⟩
theorem witness_StepStoresOnlyAtItsStoreAddress :
    (IsNext (.set .push (.smallLit 5)) (withCode [0x95A1]) ∧ (∃ t, step (withCode [0x95A1]) = .next t) ∧
      storeAddress (.set .push (.smallLit 5)) (withCode [0x95A1]) = some 0xFFFF ∧
      storeAddress (.set .push (.smallLit 5)) (withCode [0x95A1]) ≠ some 0) ∧
    (IsNext (.jsr .push) (withCode [0x6810]) ∧ (∃ t, step (withCode [0x6810]) = .next t) ∧
      storeAddress (.jsr .push) (withCode [0x6810]) = some 0xFFFE ∧
      storeAddress (.jsr .push) (withCode [0x6810]) ≠ some 0xFFFF) :=
  ⟨⟨rfl, ⟨_, rfl⟩, by decide, by decide⟩, rfl, ⟨_, rfl⟩, by decide, by decide⟩
theorem witness_PushThenPopRoundTrips : armedState.skip = false ∧ armedState.getReg .a ≠ 0 := by decide
theorem witness_CallThenReturnComesBack : armedState.skip = false ∧ armedState.sp = 0xFFF0 := by decide
theorem witness_SetPushPopOnlyClearsO : armedState.skip = false ∧ armedState.mem.wf := by decide
theorem witness_SetNextMemNextLitReadsItsWordsBeforeItStores :
    (withCode [0x7DE1, 0, 5]).skip = false ∧ (withCode [0x7DE1, 0, 5]).readMem (withCode [0x7DE1, 0, 5]).pc = 0x7DE1 := by
  decide
theorem witness_AddSpPopAndAddPcNextReadDestinationLastAndSubPcOneLoops :
    armedState.skip = false ∧ armedState.readMem armedState.pc = 0x85C3 := by decide
theorem witness_StepKeepsMemoryCanonical :
    (withCode [0x95A1]).mem.wf ∧ ∃ t, step (withCode [0x95A1]) = .next t ∧ t.readMem 0xFFFF = 5 :=
  ⟨by decide, _, rfl, by decide⟩
theorem witness_IntrospectionShowsEverythingButSkip :
    armedState.mem.wf ∧ (armedState.setSkip true).mem.wf ∧
    ∀ q, armedState.introspect q = (armedState.setSkip true).introspect q :=
  ⟨by decide, by decide, fun q => by cases q <;> rfl⟩

end Sys2Proof.Tests
end

section
/-! The shape of every instruction together with its operands and its destination, and the program counter's frame
(spec/10_state.md R24). -/

namespace Sys2Proof.Claims

open Sys2Proof.Machine

/-- The four ways an instruction completes (`exec_shape`), each with the instruction's operands, what it writes, and, for the
fourth, the instruction itself (R78, R122, R123). -/
theorem exec_shape_operands (i : Instr) :
    (∃ a b alu, operandsOf i = [a, b] ∧ destinationOf i = some a ∧ writesO i = true ∧
      ∀ s, exec i s = resultStep alu a b s) ∨
    (∃ a b alu, operandsOf i = [a, b] ∧ destinationOf i = some a ∧ writesO i = false ∧
      ∀ s, exec i s = logicStep alu a b s) ∨
    (∃ a b cond, operandsOf i = [a, b] ∧ destinationOf i = none ∧ writesO i = false ∧
      ∀ s, exec i s = conditionalStep cond a b s) ∨
    (∃ b, i = .jsr b) := by
  cases i with
  | set a b => exact .inl ⟨a, b, aluSet, rfl, rfl, rfl, fun _ => rfl⟩
  | add a b => exact .inl ⟨a, b, aluAdd, rfl, rfl, rfl, fun _ => rfl⟩
  | sub a b => exact .inl ⟨a, b, aluSub, rfl, rfl, rfl, fun _ => rfl⟩
  | mul a b => exact .inl ⟨a, b, aluMul, rfl, rfl, rfl, fun _ => rfl⟩
  | div a b => exact .inl ⟨a, b, aluDiv, rfl, rfl, rfl, fun _ => rfl⟩
  | mod a b => exact .inl ⟨a, b, aluMod, rfl, rfl, rfl, fun _ => rfl⟩
  | shl a b => exact .inl ⟨a, b, aluShl, rfl, rfl, rfl, fun _ => rfl⟩
  | shr a b => exact .inl ⟨a, b, aluShr, rfl, rfl, rfl, fun _ => rfl⟩
  | and a b => exact .inr (.inl ⟨a, b, aluAnd, rfl, rfl, rfl, fun _ => rfl⟩)
  | or a b => exact .inr (.inl ⟨a, b, aluOr, rfl, rfl, rfl, fun _ => rfl⟩)
  | xor a b => exact .inr (.inl ⟨a, b, aluXor, rfl, rfl, rfl, fun _ => rfl⟩)
  | ife a b => exact .inr (.inr (.inl ⟨a, b, condEqual, rfl, rfl, rfl, fun _ => rfl⟩))
  | ifn a b => exact .inr (.inr (.inl ⟨a, b, condNotEqual, rfl, rfl, rfl, fun _ => rfl⟩))
  | ifg a b => exact .inr (.inr (.inl ⟨a, b, condGreater, rfl, rfl, rfl, fun _ => rfl⟩))
  | ifb a b => exact .inr (.inr (.inl ⟨a, b, condAnyBit, rfl, rfl, rfl, fun _ => rfl⟩))
  | jsr b => exact .inr (.inr (.inr ⟨b, rfl⟩))

/-- A step at a legal word is the instruction's meaning on the fetched state (R118, R119). -/
theorem step_of_isNext {i : Instr} {s : State} (next : IsNext i s) : step s = exec i (s.setPc (s.pc + 1)) := by
  rcases step_cases s with ⟨j, hdecode, hstep⟩ | ⟨e, hdecode, -⟩
  · obtain rfl : j = i := Except.ok.inj (hdecode.symm.trans next)
    exact hstep
  · cases hdecode.symm.trans next

/-- The destination of a basic instruction is where its first operand resolves (R120). -/
@[simp] theorem resolveBoth_dest (a b : Operand) (s : State) : (resolveBoth a b s).dest = (s.resolve a).1 := rfl

/-- A basic step moves PC past its next words, provided it is skipped or its operation leaves PC alone (R24, R124). -/
theorem basicStep_pc {a b : Operand} {s t : State} {operation : Loc → Word → Word → State → State}
    (h : basicStep a b operation s = .next t)
    (keeps : s.skip = true ∨ ∀ va vb u, (operation (s.resolve a).1 va vb u).pc = u.pc) :
    t.pc = s.pc + ([a, b].map nextWords).sum := by
  rw [basicStep_eq] at h
  obtain rfl := Host.Outcome.next.inj h
  cases hskip : s.skip with
  | true => simp [add_assoc]
  | false =>
    have unmoved := keeps.resolve_left (by simp [hskip])
    simp [unmoved, add_assoc]

/-- An instruction, run on the fetched state, moves PC past its next words when it is skipped, and when PC is not its
destination and it is not JSR (R24). -/
theorem exec_pc {i : Instr} {s t : State} (h : exec i s = .next t)
    (keeps : s.skip = true ∨ ((destinationOf i).map (fun a => (s.resolve a).1) ≠ some .pc ∧ ¬isJsr i)) :
    t.pc = s.pc + ((operandsOf i).map nextWords).sum := by
  have notPc {a : Operand} (hdest : destinationOf i = some a) : s.skip = true ∨ (s.resolve a).1 ≠ .pc :=
    keeps.imp_right fun ⟨notDest, _⟩ => by simpa [hdest] using notDest
  rcases exec_shape_operands i with ⟨a, b, alu, hops, hdest, -, hexec⟩ | ⟨a, b, alu, hops, hdest, -, hexec⟩ |
    ⟨a, b, cond, hops, -, -, hexec⟩ | ⟨b, rfl⟩
  · rw [hops]
    exact basicStep_pc ((hexec s).symm.trans h) ((notPc hdest).imp_right fun ne _ _ u => by simp [ne])
  · rw [hops]
    exact basicStep_pc ((hexec s).symm.trans h) ((notPc hdest).imp_right fun ne _ _ u => by simp [ne])
  · rw [hops]
    exact basicStep_pc ((hexec s).symm.trans h) (.inr fun _ _ _ => rfl)
  · have skipping : s.skip = true := keeps.resolve_right fun ⟨_, notJsr⟩ => notJsr ⟨b, rfl⟩
    obtain rfl := Host.Outcome.next.inj ((execJsr_eq b s).symm.trans h)
    simp [skipping, operandsOf]

/-- Settles O38: the first three parts are the equations of the fetch and of resolution; the fourth is `exec_pc` on the fetched
state, whose PC is already one further. -/
theorem pcMovesPastTheWholeInstruction : Obligations.PcMovesPastTheWholeInstruction := by
  refine ⟨fun _ => rfl, fun s a b => resolveBoth_pc a b s, fun s b => resolveOne_pc b s, ?_⟩
  intro s i t next completes keeps
  rw [step_of_isNext next] at completes
  have moved := exec_pc completes keeps
  simpa [lengthOf, add_assoc] using moved

end Sys2Proof.Claims
end

section
/-! Memory has no side effects (spec/20_memory.md R57). -/

namespace Sys2Proof.Claims

open Sys2Proof.Machine

/-- Settles O9: the read after a write is `writeMem_readMem`, a memory write replaces the memory component alone, and an
operand moves PC by its next words and SP by its stack move (`resolve_state`). -/
theorem addressesHaveNoSideEffects : Obligations.AddressesHaveNoSideEffects := by
  refine ⟨fun s x v y => ?_, fun s x v => ?_, fun s p => ?_⟩
  · exact (writeMem_readMem s x y v).trans (if_congr eq_comm rfl rfl)
  · exact ⟨s.mem.write x.toNat v, rfl⟩
  · exact ⟨s.pc + nextWords p, s.sp + stackMove p, resolve_state s p⟩

end Sys2Proof.Claims
end

section
/-! The decoder: the mode table covers every descriptor and inverts the encoder, so an unassigned extended opcode is the only
way to fail (spec/40_cycle_and_operands.md R117, spec/60_exceptions.md R221, R222). -/

namespace Sys2Proof

/-- The rows of the mode table leave no gap: each begins where the one before it ends (R74, R117). -/
theorem modeTable_covers (d : Descriptor) : ∃ row ∈ modeTable, row.covers d = true := by
  have inRange : d.toNat < 64 := d.isLt
  simp only [modeTable, ModeRow.covers, List.mem_cons, List.not_mem_nil, or_false, exists_eq_or_imp, existsAndEq,
    true_and, Bool.and_eq_true, decide_eq_true_eq]
  omega

/-- Every descriptor has a mode (R117). -/
theorem decodeOperand_total (d : Descriptor) : ∃ p, decodeOperand d = .ok p := by
  unfold decodeOperand
  cases found : modeTable.find? (fun row => row.covers d) with
  | some row => exact ⟨row.mode d, rfl⟩
  | none =>
    obtain ⟨row, inTable, covers⟩ := modeTable_covers d
    exact absurd covers (List.find?_eq_none.mp found row inTable)

/-- A basic word always decodes: neither of its operands can fail (R117). -/
theorem decodeBasic_total (mk : Operand → Operand → Instr) (w : Word) : ∃ a b, decodeBasic mk w = .ok (mk a b) := by
  obtain ⟨a, ha⟩ := decodeOperand_total (aField w)
  obtain ⟨b, hb⟩ := decodeOperand_total (bField w)
  exact ⟨a, b, by simp [decodeBasic, ha, hb]⟩

/-- An extended word fails only for want of a table entry (R221). -/
theorem decodeExtended_error {w : Word} {e : DecodeError} (h : decodeExtended w = .error e) :
    e = .unrecognizedExtendedOpcode (aField w) := by
  unfold decodeExtended at h
  cases hentry : extendedTable.lookup (aField w) with
  | none =>
    rw [hentry] at h
    exact (Except.error.inj h).symm
  | some mk =>
    obtain ⟨b, hb⟩ := decodeOperand_total (bField w)
    simp [hentry, hb] at h

/-- A word that does not decode is an extended word without a table entry (R221, R222). -/
theorem decode_error {w : Word} {e : DecodeError} (h : decode w = .error e) :
    e = .unrecognizedExtendedOpcode (aField w) := by
  unfold decode at h
  cases hentry : basicTable.lookup (opField w) with
  | none =>
    rw [hentry] at h
    exact decodeExtended_error h
  | some mk =>
    obtain ⟨a, b, hbasic⟩ := decodeBasic_total mk w
    simp [hentry, hbasic] at h

/-- The descriptors from 0x20 on are the small literals: every earlier row of the mode table ends below (R74, R116). -/
theorem decodeOperand_of_ge {d : Descriptor} (h : 0x20 ≤ d.toNat) :
    decodeOperand d = .ok (.smallLit (trunc16 (d.toNat - 0x20))) := by
  have inRange : d.toNat ≤ 0x3F := Nat.le_of_lt_succ d.isLt
  have notBelow {last : Nat} (hlast : last < 0x20) : ¬ d.toNat ≤ last := by omega
  simp [decodeOperand, modeTable, ModeRow.covers, notBelow, h, inRange]

/-- Registers are numbered 0 to 7 without repetition (R22). -/
@[simp] theorem Reg.index_ofIndex (n : BitVec 3) : (Reg.ofIndex n).index = n := by
  revert n
  decide

/-- The mode table reads back the descriptor of every encodable operand (R74). -/
theorem decodeOperand_encodeOperand {p : Operand} (wf : p.wellFormed = true) :
    decodeOperand (encodeOperand p) = .ok p := by
  cases p with
  | reg r => cases r <;> rfl
  | regMem r => cases r <;> rfl
  | regNextMem r => cases r <;> rfl
  | smallLit v =>
    have small : v.toNat < 32 := by simpa [Operand.wellFormed] using wf
    have descriptor : (encodeOperand (.smallLit v)).toNat = 0x20 + v.toNat := by
      simp only [encodeOperand, BitVec.ofNat_eq_ofNat, BitVec.toNat_add, BitVec.toNat_ofNat, BitVec.toNat_setWidth]
      omega
    rw [decodeOperand_of_ge (by omega), descriptor]
    simp [trunc16]
  | _ => rfl

end Sys2Proof
end

section
/-! No step raises InvalidAddressingMode (spec/60_exceptions.md R222). -/

namespace Sys2Proof.Claims

open Sys2Proof.Machine

/-- A step error is always the unassigned extended opcode, recorded with its word and address (R221, R222). -/
theorem step_fault {s : State} {f : Fault} (h : step s = .fault f) :
    f = .unrecognizedExtendedOpcode (aField (s.readMem s.pc)) (s.readMem s.pc) s.pc := by
  rcases step_cases s with ⟨i, -, hstep⟩ | ⟨e, hdecode, hstep⟩
  · obtain ⟨t, completes⟩ := exec_completes i (s.setPc (s.pc + 1))
    cases h.symm.trans (hstep.trans completes)
  · obtain rfl := decode_error hdecode
    exact Host.Outcome.fault.inj (h.symm.trans hstep)

/-- Settles O12: the mode table has a row for every descriptor, so the only fault of a step is the other one
(`step_fault`). -/
theorem invalidAddressingModeIsNeverRaised : Obligations.InvalidAddressingModeIsNeverRaised :=
  ⟨decodeOperand_total, fun _ _ raised => Fault.noConfusion (step_fault raised)⟩

end Sys2Proof.Claims
end

section
/-! A skipped step (spec/40_cycle_and_operands.md R124). -/

namespace Sys2Proof.Claims

open Sys2Proof.Machine

/-- A skipped basic step resolves its operands, clears SKIP and ends, whatever its operation is (R122, R124). -/
theorem basicStep_skipped {a b : Operand} {s : State} (operation : Loc → Word → Word → State → State)
    (skipping : s.skip = true) :
    basicStep a b operation s = .next { s with
      pc := s.pc + ([a, b].map nextWords).sum, sp := s.sp + ([a, b].map stackMove).sum, skip := false } := by
  rw [basicStep_eq, if_pos skipping, resolveBoth_after]
  simp [State.setPc, State.setSp, State.setSkip, add_assoc]

/-- A skipped JSR resolves its operand, clears SKIP and ends: it neither pushes nor jumps (R123, R124). -/
theorem exec_jsr_skipped (b : Operand) {s : State} (skipping : s.skip = true) :
    exec (.jsr b) s = .next { s with pc := s.pc + nextWords b, sp := s.sp + stackMove b, skip := false } := by
  show execJsr b s = _
  rw [execJsr_eq, if_pos skipping, resolveOne_after]
  rfl

/-- A skipped instruction, run on the fetched state, moves PC past its next words and SP by its operands' amounts, clears
SKIP, and does nothing else (R124). -/
theorem exec_skipped (i : Instr) {s : State} (skipping : s.skip = true) :
    exec i s = .next { s with
      pc := s.pc + ((operandsOf i).map nextWords).sum, sp := s.sp + stackMoveOf i, skip := false } := by
  rcases exec_shape_operands i with ⟨a, b, alu, hops, -, -, hexec⟩ | ⟨a, b, alu, hops, -, -, hexec⟩ |
    ⟨a, b, cond, hops, -, -, hexec⟩ | ⟨b, rfl⟩
  · rw [stackMoveOf, hops, hexec]
    exact basicStep_skipped _ skipping
  · rw [stackMoveOf, hops, hexec]
    exact basicStep_skipped _ skipping
  · rw [stackMoveOf, hops, hexec]
    exact basicStep_skipped _ skipping
  · simpa [stackMoveOf, operandsOf] using exec_jsr_skipped b skipping

/-- A skipped step moves PC by the instruction's length and SP by its operands' amounts, and clears SKIP (R124). -/
theorem step_skipped {s : State} {i : Instr} (next : IsNext i s) (skipping : s.skip = true) :
    step s = .next { s with pc := s.pc + lengthOf i, sp := s.sp + stackMoveOf i, skip := false } := by
  have skippingFetched : (s.setPc (s.pc + 1)).skip = true := skipping
  rw [step_of_isNext next, exec_skipped i skippingFetched]
  simp [lengthOf, State.setPc, add_assoc]

/-- Settles O36: the general part is `step_skipped`; the rule's example is that lemma at SET PUSH, 5, the word 0x95A1. -/
theorem skippedStepMakesOnlyAddressingSideEffects : Obligations.SkippedStepMakesOnlyAddressingSideEffects := by
  refine ⟨fun s i => step_skipped, ?_⟩
  have next : IsNext (.set .push (.smallLit 5)) ({ State.reset with skip := true }.writeMem 0 0x95A1) := rfl
  exact ⟨_, step_skipped next rfl, by decide, by decide, by decide, rfl⟩

end Sys2Proof.Claims
end

section
/-! What each descriptor resolves to, and reading and writing a location (spec/40_cycle_and_operands.md R102 to R116). -/

namespace Sys2Proof.Claims

open Sys2Proof.Machine

/-- The descriptor of an encodable operand resolves as the operand does (R101). -/
theorem resolvesTo_encodeOperand {p : Operand} (s : State) (wf : p.wellFormed = true) :
    ResolvesTo (encodeOperand p) s (s.resolve p).1 (s.resolve p).2 :=
  ⟨p, decodeOperand_encodeOperand wf, rfl⟩

theorem encodeOperand_reg (i : BitVec 3) : encodeOperand (.reg (Reg.ofIndex i)) = i.setWidth 6 := by
  simp [encodeOperand]

theorem encodeOperand_regMem (i : BitVec 3) : encodeOperand (.regMem (Reg.ofIndex i)) = 0x08 + i.setWidth 6 := by
  simp [encodeOperand]

theorem encodeOperand_smallLit (v : BitVec 5) :
    encodeOperand (.smallLit (v.setWidth 16)) = 0x20 + v.setWidth 6 := by
  simp [encodeOperand]

/-- Five bits are in the range of a small literal (R116). -/
theorem wellFormed_smallLit (v : BitVec 5) : (Operand.smallLit (v.setWidth 16)).wellFormed = true := by
  have inRange : v.toNat < 32 := v.isLt
  simpa [Operand.wellFormed, Nat.mod_eq_of_lt (show v.toNat < 65536 by omega)] using inRange

/-- Settles O6: each descriptor is the encoding of its mode, and resolves as that mode does (`resolvesTo_encodeOperand`). -/
theorem resolutionOfEveryModeButRegisterPlusNextWord : Obligations.ResolutionOfEveryModeButRegisterPlusNextWord := by
  intro s
  refine ⟨fun i => ?_, fun i => ?_,
    resolvesTo_encodeOperand (p := .pop) s rfl, resolvesTo_encodeOperand (p := .peek) s rfl,
    resolvesTo_encodeOperand (p := .push) s rfl, resolvesTo_encodeOperand (p := .sp) s rfl,
    resolvesTo_encodeOperand (p := .pc) s rfl, resolvesTo_encodeOperand (p := .o) s rfl,
    resolvesTo_encodeOperand (p := .nextMem) s rfl, resolvesTo_encodeOperand (p := .nextLit) s rfl, fun v => ?_⟩
  · rw [← encodeOperand_reg]
    exact resolvesTo_encodeOperand s rfl
  · rw [← encodeOperand_regMem]
    exact resolvesTo_encodeOperand s rfl
  · rw [← encodeOperand_smallLit]
    exact resolvesTo_encodeOperand s (wellFormed_smallLit v)

/-- Settles O8: reading is by definition, a write is `writeLoc` field by field, and a literal is no location to write. -/
theorem locationReadAndWrite : Obligations.LocationReadAndWrite := by
  intro s v
  refine ⟨fun _ => rfl, fun _ => rfl, rfl, rfl, rfl, rfl, fun loc => ?_, fun _ => rfl⟩
  exact ⟨writeLoc_getReg s loc v, writeLoc_readMem s loc v, writeLoc_sp s loc v, writeLoc_pc s loc v,
    writeLoc_o s loc v, writeLoc_skip s loc v⟩

end Sys2Proof.Claims
end

section
/-! The encoding of a basic word, what an armed instruction that writes a result and O leaves, and SET (spec/30_encoding.md R71,
spec/40_cycle_and_operands.md R122, R126, spec/41_move_arith.md R141). -/

namespace Sys2Proof

/-- The opcode field is the word's remainder by 16 (R71). -/
theorem opField_eq_ofNat (w : Word) : opField w = BitVec.ofNat 4 (w.toNat % 16) := by
  apply BitVec.eq_of_toNat_eq
  simp [opField]

/-- The `a` field in arithmetic (R71). -/
theorem aField_eq_ofNat (w : Word) : aField w = BitVec.ofNat 6 (w.toNat / 16) := by
  rw [aField, BitVec.extractLsb', Nat.shiftRight_eq_div_pow]

/-- The `b` field in arithmetic (R71). -/
theorem bField_eq_ofNat (w : Word) : bField w = BitVec.ofNat 6 (w.toNat / 1024) := by
  rw [bField, BitVec.extractLsb', Nat.shiftRight_eq_div_pow]

/-- A word whose opcode has a row in the basic table decodes to that row's instruction, with the modes of its two descriptors
(R71, R78, R119). -/
theorem decode_of_basicTable {w : Word} {mk : Operand → Operand → Instr} {a b : Operand}
    (row : basicTable.lookup (opField w) = some mk) (ha : decodeOperand (aField w) = .ok a)
    (hb : decodeOperand (bField w) = .ok b) : decode w = .ok (mk a b) := by
  simp [decode, decodeBasic, row, ha, hb]

end Sys2Proof

namespace Sys2Proof.Claims

open Sys2Proof.Machine

/-- Writing an ALU output on the state after the operands' resolution leaves its result in the destination and its overflow
value in O, and keeps the rest (R122, R126). -/
theorem writesResultAndO_writeResult (a b : Operand) (s : State) (out : AluOut) :
    WritesResultAndO a b s
      ((resolveBoth a b s).after.writeResult Config.oDestOrder (resolveBoth a b s).dest out)
      out.result out.overflow := by
  refine ⟨fun q => ?registers, fun x => ?memory, ?sp, ?pc, ?o, ?skip⟩
  case registers => rw [writeResult_getReg, resolveBoth_getReg]
  case memory => rw [writeResult_readMem, resolveBoth_readMem]
  case sp => rw [writeResult_sp, resolveBoth_sp]
  case pc => rw [writeResult_pc, resolveBoth_pc]
  case o => exact writeResult_o _ _ _ _
  case skip => rw [writeResult_skip, resolveBoth_skip]

/-- An armed instruction that computes a result and an overflow value completes and writes both (R122, R126). -/
theorem resultStep_armed (alu : Word → Word → AluOut) (a b : Operand) {s : State} (armed : s.skip = false) :
    ∃ t, resultStep alu a b s = .next t ∧
      WritesResultAndO a b s t
        (alu (resolveBoth a b s).destValue (resolveBoth a b s).sourceValue).result
        (alu (resolveBoth a b s).destValue (resolveBoth a b s).sourceValue).overflow := by
  refine ⟨_, ?_, writesResultAndO_writeResult a b s _⟩
  rw [resultStep_eq, armed, if_neg Bool.false_ne_true]

/-- Every word with opcode 0x1 is SET with the modes of its two descriptors (R78, R141). -/
theorem decode_set {w : Word} (op : w.toNat % 16 = 0x1) :
    ∃ a b, decodeOperand (aField w) = .ok a ∧ decodeOperand (bField w) = .ok b ∧ decode w = .ok (.set a b) := by
  obtain ⟨a, ha⟩ := decodeOperand_total (aField w)
  obtain ⟨b, hb⟩ := decodeOperand_total (bField w)
  have row : basicTable.lookup (opField w) = some .set := by
    rw [opField_eq_ofNat, op]
    rfl
  exact ⟨a, b, ha, hb, decode_of_basicTable row ha hb⟩

/-- An armed SET copies the source and clears O: `aluSet`'s two outputs (R141). -/
theorem exec_set_armed (a b : Operand) {s : State} (armed : s.skip = false) :
    ∃ t, exec (.set a b) s = .next t ∧ WritesResultAndO a b s t (resolveBoth a b s).sourceValue 0 :=
  resultStep_armed aluSet a b armed

/-- Settles O19: the encoding is `decode_set`, the meaning `exec_set_armed`, and R141's example is that meaning on the fetched
state of the word 0x8401. -/
theorem setCopiesAndClearsO : Obligations.SetCopiesAndClearsO := by
  refine ⟨fun w op => ?_, fun a b s armed => exec_set_armed a b armed, ?_⟩
  · rw [← aField_eq_ofNat, ← bField_eq_ofNat]
    exact decode_set op
  · have next : IsNext (.set (.reg .a) (.smallLit 1)) (State.reset.writeMem 0 0x8401) := rfl
    obtain ⟨t, completes, registers, -, -, pc, o, -⟩ :=
      exec_set_armed (.reg .a) (.smallLit 1) (s := (State.reset.writeMem 0 0x8401).setPc 1) rfl
    exact ⟨t, (step_of_isNext next).trans completes, registers .a, pc, o⟩

end Sys2Proof.Claims
end

section
/-! Encoding and decoding are inverse, and which words are illegal (spec/30_encoding.md R71 to R81). -/

namespace Sys2Proof

/-- Every instruction is a row of the basic table applied to two operands, or JSR (R78, R79). -/
theorem Instr.basic_or_jsr (i : Instr) :
    (∃ op mk a b, basicTable.lookup op = some mk ∧ i = mk a b) ∨ ∃ b, i = .jsr b := by
  cases i with
  | set a b => exact .inl ⟨0x1, .set, a, b, rfl, rfl⟩
  | add a b => exact .inl ⟨0x2, .add, a, b, rfl, rfl⟩
  | sub a b => exact .inl ⟨0x3, .sub, a, b, rfl, rfl⟩
  | mul a b => exact .inl ⟨0x4, .mul, a, b, rfl, rfl⟩
  | div a b => exact .inl ⟨0x5, .div, a, b, rfl, rfl⟩
  | mod a b => exact .inl ⟨0x6, .mod, a, b, rfl, rfl⟩
  | shl a b => exact .inl ⟨0x7, .shl, a, b, rfl, rfl⟩
  | shr a b => exact .inl ⟨0x8, .shr, a, b, rfl, rfl⟩
  | and a b => exact .inl ⟨0x9, .and, a, b, rfl, rfl⟩
  | or a b => exact .inl ⟨0xA, .or, a, b, rfl, rfl⟩
  | xor a b => exact .inl ⟨0xB, .xor, a, b, rfl, rfl⟩
  | ife a b => exact .inl ⟨0xC, .ife, a, b, rfl, rfl⟩
  | ifn a b => exact .inl ⟨0xD, .ifn, a, b, rfl, rfl⟩
  | ifg a b => exact .inl ⟨0xE, .ifg, a, b, rfl, rfl⟩
  | ifb a b => exact .inl ⟨0xF, .ifb, a, b, rfl, rfl⟩
  | jsr b => exact .inr ⟨b, rfl⟩

/-- A lookup in the basic table finds one of its fifteen rows (R78). -/
theorem mem_basicTable_of_lookup {op : BitVec 4} {mk : Operand → Operand → Instr}
    (row : basicTable.lookup op = some mk) : (op, mk) ∈ basicTable := by
  obtain ⟨before, after, split, -⟩ := List.lookup_eq_some_iff.mp row
  simp [split]

/-- The encoder writes each row's opcode, and a row's instruction is well-formed exactly when its operands are (R71,
R78, R81). -/
theorem encode_basic {op : BitVec 4} {mk : Operand → Operand → Instr} (row : basicTable.lookup op = some mk)
    (a b : Operand) :
    encode (mk a b) = instructionWord op (encodeOperand a) (encodeOperand b) ∧
      (mk a b).wellFormed = (a.wellFormed && b.wellFormed) := by
  have rows : ∀ row ∈ basicTable,
      encode (row.2 a b) = instructionWord row.1 (encodeOperand a) (encodeOperand b) ∧
        (row.2 a b).wellFormed = (a.wellFormed && b.wellFormed) := by
    simp [basicTable, encode, Instr.wellFormed]
  exact rows _ (mem_basicTable_of_lookup row)

/-- The basic table has a row for every opcode but 0x0 (R73, R78). -/
theorem basicTable_lookup_eq_none {op : BitVec 4} : basicTable.lookup op = none ↔ op = 0 := by
  rw [← Option.isNone_iff_eq_none]
  revert op
  decide

/-- The extended word at JSR's entry (R72, R79). -/
theorem decode_jsr {w : Word} {b : Operand} (escape : opField w = 0) (assigned : aField w = 1)
    (hb : decodeOperand (bField w) = .ok b) : decode w = .ok (.jsr b) := by
  simp [decode, decodeExtended, extendedTable, basicTable_lookup_eq_none.mpr escape, assigned, hb]

/-- An extended word with no table entry (R80, R221). -/
theorem decode_unassigned {w : Word} (escape : opField w = 0) (unassigned : aField w ≠ 1) :
    decode w = .error (.unrecognizedExtendedOpcode (aField w)) := by
  have noRow : (aField w == 1#6) = false := beq_eq_false_iff_ne.mpr unassigned
  simp [decode, decodeExtended, extendedTable, List.lookup, basicTable_lookup_eq_none.mpr escape, noRow]

/-- A word that decodes is a basic one, of the table's row for its opcode, or JSR (R71, R72, R119). -/
theorem decode_ok {w : Word} {i : Instr} (h : decode w = .ok i) :
    (∃ mk a b, basicTable.lookup (opField w) = some mk ∧ decodeOperand (aField w) = .ok a ∧
      decodeOperand (bField w) = .ok b ∧ i = mk a b) ∨
    (opField w = 0 ∧ aField w = 1 ∧ ∃ b, decodeOperand (bField w) = .ok b ∧ i = .jsr b) := by
  obtain ⟨a, ha⟩ := decodeOperand_total (aField w)
  obtain ⟨b, hb⟩ := decodeOperand_total (bField w)
  cases row : basicTable.lookup (opField w) with
  | some mk =>
    have hi : mk a b = i := Except.ok.inj ((decode_of_basicTable row ha hb).symm.trans h)
    exact .inl ⟨mk, a, b, rfl, ha, hb, hi.symm⟩
  | none =>
    have escape := basicTable_lookup_eq_none.mp row
    by_cases assigned : aField w = 1
    · exact .inr ⟨escape, assigned, b, hb, Except.ok.inj (h.symm.trans (decode_jsr escape assigned hb))⟩
    · cases h.symm.trans (decode_unassigned escape assigned)

/-- The words that do not decode, and the error each gives (R80, R81, R221). -/
theorem decode_error_iff {w : Word} {e : DecodeError} :
    decode w = .error e ↔ opField w = 0 ∧ aField w ≠ 1 ∧ e = .unrecognizedExtendedOpcode (aField w) := by
  constructor
  · intro h
    have escape : opField w = 0 := by
      by_contra basic
      obtain ⟨mk, row⟩ := Option.ne_none_iff_exists'.mp (mt basicTable_lookup_eq_none.mp basic)
      obtain ⟨a, b, decodes⟩ := decodeBasic_total mk w
      simp [decode, row, decodes] at h
    refine ⟨escape, fun assigned => ?_, decode_error h⟩
    obtain ⟨b, hb⟩ := decodeOperand_total (bField w)
    cases h.symm.trans (decode_jsr escape assigned hb)
  · rintro ⟨escape, unassigned, rfl⟩
    exact decode_unassigned escape unassigned

/-- The opcode is 0x0 exactly when the word's remainder by 16 is (R71). -/
theorem opField_eq_zero {w : Word} : opField w = 0 ↔ w.toNat % 16 = 0 := by
  rw [opField_eq_ofNat, ← BitVec.toNat_inj, BitVec.toNat_ofNat]
  show w.toNat % 16 % 16 = 0 ↔ _
  rw [Nat.mod_mod]

/-- The `a` field as a number (R71). -/
theorem aField_toNat (w : Word) : (aField w).toNat = w.toNat / 16 % 64 := by
  rw [aField_eq_ofNat, BitVec.toNat_ofNat]

/-- The `b` field as a number: nothing stands above it (R71). -/
theorem bField_toNat (w : Word) : (bField w).toNat = w.toNat / 1024 := by
  have inRange := w.isLt
  rw [bField_eq_ofNat, BitVec.toNat_ofNat]
  omega

/-- The `ext` field is JSR's exactly when its number is 1 (R72, R79). -/
theorem aField_eq_one {w : Word} : aField w = 1 ↔ w.toNat / 16 % 64 = 1 := by
  rw [← aField_toNat, ← BitVec.toNat_inj]
  rfl

/-- Small literals keep the order of their descriptors (R116). -/
theorem encodeOperand_smallLit_toNat {v : Word} (wf : (Operand.smallLit v).wellFormed = true) :
    (encodeOperand (.smallLit v)).toNat = 0x20 + v.toNat := by
  have small : v.toNat < 32 := by simpa [Operand.wellFormed] using wf
  simp only [encodeOperand, BitVec.ofNat_eq_ofNat, BitVec.toNat_add, BitVec.toNat_ofNat, BitVec.toNat_setWidth]
  omega

/-- The mode of a descriptor is encodable, and its encoding is that descriptor (R74, R117). -/
theorem encodeOperand_decodeOperand {d : Descriptor} {p : Operand} (h : decodeOperand d = .ok p) :
    p.wellFormed = true ∧ encodeOperand p = d := by
  have table : ∀ d : Descriptor,
      ((decodeOperand d).map fun p => p.wellFormed && encodeOperand p == d).toOption = some true := by
    decide
  have mode := table d
  rw [h] at mode
  simpa [Except.map, Except.toOption] using mode

/-- The fields of a word make up the word: no bit is left over (R71). -/
theorem instructionWord_fields (w : Word) : instructionWord (opField w) (aField w) (bField w) = w := by
  apply BitVec.eq_of_getElem_eq
  intro k hk
  interval_cases k <;> simp [instructionWord, opField, aField, bField]

end Sys2Proof

namespace Sys2Proof.Claims

open Sys2Proof.Machine

/-- Settles O2: the fields of an instruction word are read back (`opField_instructionWord` and its companions), and so
is the operand of a descriptor (`decodeOperand_encodeOperand`). -/
theorem decodeOfEncodeIsTheInstruction : Obligations.DecodeOfEncodeIsTheInstruction := by
  intro i wf
  rcases i.basic_or_jsr with ⟨op, mk, a, b, row, rfl⟩ | ⟨b, rfl⟩
  · obtain ⟨word, wfOperands⟩ := encode_basic row a b
    rw [wfOperands, Bool.and_eq_true] at wf
    rw [word]
    apply decode_of_basicTable
    · rw [opField_instructionWord, row]
    · rw [aField_instructionWord, decodeOperand_encodeOperand wf.1]
    · rw [bField_instructionWord, decodeOperand_encodeOperand wf.2]
  · apply decode_jsr
    · exact opField_instructionWord _ _ _
    · exact aField_instructionWord _ _ _
    · exact (congrArg decodeOperand (bField_instructionWord _ _ _)).trans (decodeOperand_encodeOperand wf)

/-- Settles O3: a decoded operand encodes as its descriptor, and the three fields make up the word. -/
theorem encodeOfDecodeIsTheWord : Obligations.EncodeOfDecodeIsTheWord := by
  intro w i h
  rcases decode_ok h with ⟨mk, a, b, row, ha, hb, rfl⟩ | ⟨escape, assigned, b, hb, rfl⟩
  · obtain ⟨wfa, encA⟩ := encodeOperand_decodeOperand ha
    obtain ⟨wfb, encB⟩ := encodeOperand_decodeOperand hb
    obtain ⟨word, wfOperands⟩ := encode_basic row a b
    rw [wfOperands, word, wfa, wfb, encA, encB]
    exact ⟨rfl, instructionWord_fields w⟩
  · obtain ⟨wfb, encB⟩ := encodeOperand_decodeOperand hb
    refine ⟨wfb, ?_⟩
    have fields := instructionWord_fields w
    rw [escape, assigned, ← encB] at fields
    exact fields

/-- Settles O4: the words that do not decode are those of `decode_error_iff`, its fields written as numbers. -/
theorem onlyUnassignedExtendedWordsAreIllegal : Obligations.OnlyUnassignedExtendedWordsAreIllegal := by
  refine ⟨fun w escape unassigned => ?_, fun w legal => ?_⟩
  · rw [← aField_eq_ofNat]
    exact decode_error_iff.mpr ⟨opField_eq_zero.mpr escape, mt aField_eq_one.mp unassigned, rfl⟩
  · cases h : decode w with
    | ok i => exact ⟨i, rfl⟩
    | error e =>
      obtain ⟨escape, unassigned, -⟩ := decode_error_iff.mp h
      exact absurd legal (by simp [opField_eq_zero.mp escape, mt aField_eq_one.mpr unassigned])

/-- Settles O1: each word's fields select its row and its modes, by evaluation. -/
theorem writtenOutWordsDecode : Obligations.WrittenOutWordsDecode :=
  ⟨rfl, rfl, rfl, rfl, rfl, rfl, rfl, rfl, rfl, rfl, rfl, rfl, rfl, rfl, rfl, rfl, rfl⟩

/-- Settles O5: a descriptor is the encoding of its mode, so the ranges can be read off mode by mode. -/
theorem nextWordDescriptors : Obligations.NextWordDescriptors := by
  intro d p h
  obtain ⟨wf, rfl⟩ := encodeOperand_decodeOperand h
  cases p with
  | reg r => cases r <;> rfl
  | regMem r => cases r <;> rfl
  | regNextMem r => cases r <;> rfl
  | smallLit v =>
    rw [encodeOperand_smallLit_toNat wf, if_neg (by omega)]
    rfl
  | _ => rfl

end Sys2Proof.Claims
end

section
/-! The model's step is the reference step, the spec's pseudocode on raw words (spec/40_cycle_and_operands.md R101 to
R132, spec/41_move_arith.md, spec/42_shift_logic.md, spec/43_conditional.md, spec/44_extended.md). -/

namespace Sys2Proof.Claims

open Sys2Proof.Machine

/-! ### The record, its locations and its reads and writes -/

/-- The number of a register (R22). -/
def refReg (r : Reg) : Fin 8 := Fin.ofNat 8 r.index.toNat

/-- The reference's location for one of the model (R101). -/
def refLoc : Loc → RefLoc
  | .reg r => .reg (refReg r)
  | .mem addr => .mem addr
  | .sp => .sp
  | .pc => .pc
  | .o => .o
  | .lit v => .lit v

theorem ofIndex_eq_iff (k : Fin 8) (r : Reg) : Reg.ofIndex (BitVec.ofNat 3 k.val) = r ↔ k = refReg r := by
  cases r <;> revert k <;> decide

@[simp] theorem refOf_x_refReg (s : State) (r : Reg) : (refOf s).x (refReg r) = s.getReg r :=
  congrArg s.getReg ((ofIndex_eq_iff (refReg r) r).mpr rfl)

/-- Reading a location (R102). -/
theorem read_refOf (s : State) (loc : Loc) : (refOf s).read (refLoc loc) = s.readLoc loc := by
  cases loc with
  | reg r => exact refOf_x_refReg s r
  | _ => rfl

/-- Writing a location (R103), with the truncation the reference leaves to the write. -/
theorem write_refOf (s : State) (loc : Loc) (v : Int) :
    (refOf s).write (refLoc loc) v = refOf (s.writeLoc loc (truncInt16 v)) := by
  cases loc with
  | reg r =>
    have registers : (fun k => if k = refReg r then truncInt16 v else (refOf s).x k) =
        (refOf (s.setReg r (truncInt16 v))).x := by
      funext k
      simp only [refOf, setReg_getReg, ← ofIndex_eq_iff, eq_comm]
    exact congrArg (fun x => { refOf s with x := x }) registers
  | mem addr =>
    have memory : (fun k => if k = addr then truncInt16 v else s.readMem k) =
        (s.writeMem addr (truncInt16 v)).readMem := by
      funext k
      simp only [writeMem_readMem, eq_comm]
    exact congrArg (fun m => { refOf s with m := m }) memory
  | _ => rfl

/-- A result and an overflow value before truncation, truncated (R11, R140). -/
def truncOut (r ov : Int) : AluOut := { result := truncInt16 r, overflow := truncInt16 ov }

/-- The two writes of an operation that writes O, in either order (R126). -/
theorem writeBoth_refOf (s : State) (order : ODestOrder) (la : Loc) (r ov : Int) :
    (refOf s).writeBoth order (refLoc la) r ov = refOf (s.writeResult order la (truncOut r ov)) := by
  cases order with
  | destThenO =>
    rw [writeResult_destThenO, RefState.writeBoth, write_refOf]
    exact write_refOf _ .o ov
  | oThenDest =>
    have oFirst : (refOf s).write .o ov = refOf (s.setO (truncInt16 ov)) := rfl
    rw [writeResult_oThenDest, RefState.writeBoth, oFirst, write_refOf]
    rfl

/-! ### Resolution -/

theorem ofInt_sub_one (v : Word) : BitVec.ofInt 16 ((v.toNat : Int) - 1) = v - 1 := aluSub_result v 1

/-- A descriptor's number resolves as the mode the descriptor stands for (R105 to R116). -/
theorem resolve_refOf {d : Descriptor} {p : Operand} (mode : decodeOperand d = .ok p) (s : State) :
    (refOf s).resolve d.toNat = (refLoc (s.resolve p).1, refOf (s.resolve p).2) := by
  obtain ⟨wf, rfl⟩ := encodeOperand_decodeOperand mode
  cases p with
  | reg r => cases r <;> rfl
  | regMem r => cases r <;> rfl
  | regNextMem r => cases r <;> rfl
  | push =>
    have slot : (refOf s).resolve 0x1A =
        (.mem (BitVec.ofInt 16 ((s.sp.toNat : Int) - 1)),
          { refOf s with sp := BitVec.ofInt 16 ((s.sp.toNat : Int) - 1) }) := rfl
    rw [ofInt_sub_one] at slot
    exact slot
  | smallLit v =>
    rw [encodeOperand_smallLit_toNat wf]
    have notBelow {last : Nat} (hlast : last < 0x20) : ¬ 0x20 + v.toNat ≤ last := by omega
    have notRow {row : Nat} (hrow : row < 0x20) : ¬ 0x20 + v.toNat = row := by omega
    simp [RefState.resolve, notBelow, notRow, State.resolve, refLoc]
  | _ => rfl

/-! ### The operations -/

theorem truncInt16_natCast (n : Nat) : truncInt16 (n : Int) = trunc16 n := BitVec.ofInt_natCast 16 n

theorem truncInt16_toNat (v : Word) : truncInt16 (v.toNat : Int) = v := by
  rw [truncInt16_natCast, trunc16, BitVec.ofNat_toNat, BitVec.setWidth_eq]

theorem truncOut_natCast (r ov : Nat) : truncOut r ov = { result := trunc16 r, overflow := trunc16 ov } := by
  rw [truncOut, truncInt16_natCast, truncInt16_natCast]

/-- An operation of the model does to the record what phase 3 of the reference does at an opcode's number (R122). -/
def RefinesExecute (op : Nat) (operation : Loc → Word → Word → State → State) : Prop :=
  ∀ la va vb t, (refOf t).execute Config.oDestOrder op (refLoc la) va.toNat vb.toNat = refOf (operation la va vb t)

/-- An operation that writes its destination and O refines the reference when the reference makes the two writes with
the ALU's output before truncation (R126). -/
theorem refinesExecute_result {op : Nat} {alu : Word → Word → AluOut} (r ov : Word → Word → Int)
    (executes : ∀ (t : RefState) order la va vb,
      t.execute order op la va.toNat vb.toNat = t.writeBoth order la (r va vb) (ov va vb))
    (computes : ∀ va vb, truncOut (r va vb) (ov va vb) = alu va vb) :
    RefinesExecute op (fun la va vb t => t.writeResult Config.oDestOrder la (alu va vb)) := by
  intro la va vb t
  rw [executes, writeBoth_refOf, computes]

theorem refines_set : RefinesExecute 0x1 (fun la va vb t => t.writeResult Config.oDestOrder la (aluSet va vb)) :=
  refinesExecute_result (fun _ vb => vb.toNat) (fun _ _ => 0) (fun _ _ _ _ _ => rfl) fun va vb => by
    rw [truncOut, truncInt16_toNat]
    rfl

theorem refines_add : RefinesExecute 0x2 (fun la va vb t => t.writeResult Config.oDestOrder la (aluAdd va vb)) :=
  refinesExecute_result (fun va vb => (va.toNat + vb.toNat : Nat))
    (fun va vb => if va.toNat + vb.toNat ≥ 2 ^ 16 then 1 else 0) (fun _ _ _ _ _ => rfl) fun va vb => by
    rw [truncOut, truncInt16_natCast, apply_ite truncInt16]
    rfl

theorem refines_sub : RefinesExecute 0x3 (fun la va vb t => t.writeResult Config.oDestOrder la (aluSub va vb)) :=
  refinesExecute_result (fun va vb => va.toNat - vb.toNat)
    (fun va vb => if (va.toNat : Int) - vb.toNat < 0 then 0xFFFF else 0) (fun _ _ _ _ _ => rfl) fun va vb => by
    rw [truncOut, apply_ite truncInt16]
    rfl

theorem refines_mul : RefinesExecute 0x4 (fun la va vb t => t.writeResult Config.oDestOrder la (aluMul va vb)) :=
  refinesExecute_result (fun va vb => (va.toNat * vb.toNat : Nat)) (fun va vb => (va.toNat * vb.toNat / 2 ^ 16 : Nat))
    (fun _ _ _ _ _ => rfl) fun va vb => by
    rw [truncOut_natCast, aluMul, Nat.shiftRight_eq_div_pow]

theorem refines_div : RefinesExecute 0x5 (fun la va vb t => t.writeResult Config.oDestOrder la (aluDiv va vb)) :=
  refinesExecute_result (fun va vb => if vb = 0 then 0 else (va.toNat / vb.toNat : Nat))
    (fun va vb => if vb = 0 then 0 else (va.toNat * 2 ^ 16 / vb.toNat : Nat))
    (fun t order la va vb => by
      have zero : vb.toNat = 0 ↔ vb = 0 := BitVec.toNat_inj (y := 0)
      simp only [RefState.execute, zero]
      split <;> rfl) fun va vb => by
    unfold aluDiv
    split
    · rfl
    · rw [truncOut_natCast, Nat.shiftLeft_eq]

theorem refines_mod : RefinesExecute 0x6 (fun la va vb t => t.writeResult Config.oDestOrder la (aluMod va vb)) :=
  refinesExecute_result (fun va vb => if vb = 0 then 0 else (va.toNat % vb.toNat : Nat)) (fun _ _ => 0)
    (fun t order la va vb => by
      have zero : vb.toNat = 0 ↔ vb = 0 := BitVec.toNat_inj (y := 0)
      simp only [RefState.execute, zero]
      split <;> rfl) fun va vb => by
    unfold aluMod
    split
    · rfl
    · exact truncOut_natCast _ 0

theorem refines_shl : RefinesExecute 0x7 (fun la va vb t => t.writeResult Config.oDestOrder la (aluShl va vb)) :=
  refinesExecute_result (fun va vb => (va.toNat * 2 ^ vb.toNat : Nat))
    (fun va vb => (va.toNat * 2 ^ vb.toNat / 2 ^ 16 : Nat)) (fun _ _ _ _ _ => rfl) fun va vb => by
    rw [truncOut_natCast, aluShl, Nat.shiftRight_eq_div_pow, Nat.shiftLeft_eq]

theorem refines_shr : RefinesExecute 0x8 (fun la va vb t => t.writeResult Config.oDestOrder la (aluShr va vb)) :=
  refinesExecute_result (fun va vb => (va.toNat / 2 ^ vb.toNat : Nat))
    (fun va vb => (va.toNat * 2 ^ 16 / 2 ^ vb.toNat : Nat)) (fun _ _ _ _ _ => rfl) fun va vb => by
    rw [truncOut_natCast, aluShr, Nat.shiftRight_eq_div_pow, Nat.shiftRight_eq_div_pow, Nat.shiftLeft_eq]

/-- The bitwise operations agree with those on numbers (R163 to R165). -/
theorem refines_and : RefinesExecute 0x9 (fun la va vb t => t.writeLoc la (aluAnd va vb)) := fun la va vb t => by
  show _ = refOf (t.writeLoc la (va &&& vb))
  rw [← truncInt16_toNat (va &&& vb), BitVec.toNat_and]
  exact write_refOf t la _

theorem refines_or : RefinesExecute 0xA (fun la va vb t => t.writeLoc la (aluOr va vb)) := fun la va vb t => by
  show _ = refOf (t.writeLoc la (va ||| vb))
  rw [← truncInt16_toNat (va ||| vb), BitVec.toNat_or]
  exact write_refOf t la _

theorem refines_xor : RefinesExecute 0xB (fun la va vb t => t.writeLoc la (aluXor va vb)) := fun la va vb t => by
  show _ = refOf (t.writeLoc la (va ^^^ vb))
  rw [← truncInt16_toNat (va ^^^ vb), BitVec.toNat_xor]
  exact write_refOf t la _

/-- An operation that writes SKIP refines the reference when the conditions agree (R181). -/
theorem refinesExecute_conditional {op : Nat} {cond : Word → Word → Bool} (refCond : Nat → Nat → Bool)
    (executes : ∀ (t : RefState) order la va vb, t.execute order op la va vb = { t with skip := !refCond va vb })
    (agrees : ∀ va vb : Word, refCond va.toNat vb.toNat = cond va vb) :
    RefinesExecute op (fun _ va vb t => t.setSkip (!cond va vb)) := by
  intro la va vb t
  rw [executes, agrees]
  rfl

theorem refines_ife : RefinesExecute 0xC (fun _ va vb t => t.setSkip (!condEqual va vb)) :=
  refinesExecute_conditional (fun va vb => decide (va = vb)) (fun _ _ _ _ _ => rfl) fun va vb => by
    simp only [condEqual, BitVec.toNat_inj]

theorem refines_ifn : RefinesExecute 0xD (fun _ va vb t => t.setSkip (!condNotEqual va vb)) :=
  refinesExecute_conditional (fun va vb => decide (va ≠ vb)) (fun _ _ _ _ _ => rfl) fun va vb => by
    simp only [condNotEqual, ne_eq, BitVec.toNat_inj]

theorem refines_ifg : RefinesExecute 0xE (fun _ va vb t => t.setSkip (!condGreater va vb)) :=
  refinesExecute_conditional (fun va vb => decide (va > vb)) (fun _ _ _ _ _ => rfl) fun _ _ => rfl

theorem refines_ifb : RefinesExecute 0xF (fun _ va vb t => t.setSkip (!condAnyBit va vb)) :=
  refinesExecute_conditional (fun va vb => decide (va &&& vb ≠ 0)) (fun _ _ _ _ _ => rfl) fun va vb => by
    have zero : (va &&& vb).toNat = 0 ↔ va &&& vb = 0 := BitVec.toNat_inj (y := 0)
    simp only [condAnyBit, ne_eq, ← BitVec.toNat_and, zero]

/-! ### The step -/

/-- Every row of the basic table is a basic step whose operation the reference makes at that row's opcode (R78, R122).
-/
theorem basicTable_refines {op : BitVec 4} {mk : Operand → Operand → Instr} (row : basicTable.lookup op = some mk) :
    ∃ operation, (∀ a b s, exec (mk a b) s = basicStep a b operation s) ∧ RefinesExecute op.toNat operation := by
  have rows : ∀ row ∈ basicTable, ∃ operation,
      (∀ a b s, exec (row.2 a b) s = basicStep a b operation s) ∧ RefinesExecute row.1.toNat operation := by
    simp only [basicTable, List.forall_mem_cons]
    exact ⟨⟨_, fun _ _ _ => rfl, refines_set⟩, ⟨_, fun _ _ _ => rfl, refines_add⟩, ⟨_, fun _ _ _ => rfl, refines_sub⟩,
      ⟨_, fun _ _ _ => rfl, refines_mul⟩, ⟨_, fun _ _ _ => rfl, refines_div⟩, ⟨_, fun _ _ _ => rfl, refines_mod⟩,
      ⟨_, fun _ _ _ => rfl, refines_shl⟩, ⟨_, fun _ _ _ => rfl, refines_shr⟩, ⟨_, fun _ _ _ => rfl, refines_and⟩,
      ⟨_, fun _ _ _ => rfl, refines_or⟩, ⟨_, fun _ _ _ => rfl, refines_xor⟩, ⟨_, fun _ _ _ => rfl, refines_ife⟩,
      ⟨_, fun _ _ _ => rfl, refines_ifn⟩, ⟨_, fun _ _ _ => rfl, refines_ifg⟩, ⟨_, fun _ _ _ => rfl, refines_ifb⟩,
      fun _ h => absurd h List.not_mem_nil⟩
  exact rows _ (mem_basicTable_of_lookup row)

/-- The basic step after the fetch (R122). -/
theorem basic_refOf {op : Nat} {operation : Loc → Word → Word → State → State} (refines : RefinesExecute op operation)
    {da db : Descriptor} {a b : Operand} (ha : decodeOperand da = .ok a) (hb : decodeOperand db = .ok b) (s : State) :
    ∃ t, basicStep a b operation s = .next t ∧
      (refOf s).basic Config.oDestOrder op da.toNat db.toNat = refOf t := by
  refine ⟨_, basicStep_eq a b s operation, ?_⟩
  have resolvedA := resolve_refOf ha s
  have resolvedB : ({ refOf (s.resolve a).2 with skip := false } : RefState).resolve db.toNat =
      (refLoc (resolveBoth a b s).source, refOf (resolveBoth a b s).after) :=
    resolve_refOf hb ((s.resolve a).2.setSkip false)
  have skipping : (refOf (s.resolve a).2).skip = s.skip := resolve_skip s a
  simp only [RefState.basic, resolvedA, resolvedB, skipping, read_refOf]
  split
  · rfl
  · exact refines _ _ _ _

/-- JSR's push and jump (R201). -/
theorem jsr_refOf (s : State) (target : Word) :
    (refOf s).jsr target = refOf ((s.pushWord s.pc).setPc target) := by
  have pushed : (refOf (s.setSp (s.sp - 1))).write (.mem (s.sp - 1)) s.pc.toNat = refOf (s.pushWord s.pc) := by
    have written := write_refOf (s.setSp (s.sp - 1)) (.mem (s.sp - 1)) s.pc.toNat
    rwa [truncInt16_toNat] at written
  have slot : BitVec.ofInt 16 (((refOf s).sp.toNat : Int) - 1) = s.sp - 1 := ofInt_sub_one s.sp
  simp only [RefState.jsr, slot]
  exact congrArg (fun r : RefState => { r with pc := target }) pushed

/-- The extended step after the fetch (R123). -/
theorem extended_refOf {db : Descriptor} {b : Operand} (hb : decodeOperand db = .ok b) (s : State) :
    ∃ t, exec (.jsr b) s = .next t ∧ (refOf s).extended db.toNat = refOf t := by
  refine ⟨_, execJsr_eq b s, ?_⟩
  have resolvedB : ({ refOf s with skip := false } : RefState).resolve db.toNat =
      (refLoc (resolveOne b s).source, refOf (resolveOne b s).after) := resolve_refOf hb (s.setSkip false)
  have skipping : (refOf s).skip = s.skip := rfl
  simp only [RefState.extended, resolvedB, skipping, read_refOf]
  split
  · rfl
  · exact jsr_refOf _ _

/-- The reference step with its fields read off the word as the model reads them (R71, R118, R119). -/
theorem refStep_eq (s : State) (order : ODestOrder) :
    (refOf s).step order =
      if opField (s.readMem s.pc) ≠ 0 then
        .ok ((refOf (s.setPc (s.pc + 1))).basic order (opField (s.readMem s.pc)).toNat
          (aField (s.readMem s.pc)).toNat (bField (s.readMem s.pc)).toNat)
      else if aField (s.readMem s.pc) ≠ 1 then
        .error (aField (s.readMem s.pc)).toNat (s.readMem s.pc) s.pc
      else .ok ((refOf (s.setPc (s.pc + 1))).extended (bField (s.readMem s.pc)).toNat) := by
  have word : (refOf s).next = (s.readMem s.pc, refOf (s.setPc (s.pc + 1))) := rfl
  have opcode : (opField (s.readMem s.pc)).toNat = (s.readMem s.pc).toNat % 16 := by
    rw [opField_eq_ofNat, BitVec.toNat_ofNat]
    exact Nat.mod_mod _ _
  have fetchedAt : BitVec.ofInt 16 (((refOf (s.setPc (s.pc + 1))).pc.toNat : Int) - 1) = s.pc := by
    rw [ofInt_sub_one]
    exact BitVec.add_sub_cancel s.pc 1
  simp only [RefState.step, word, fetchedAt, ne_eq, opField_eq_zero, aField_eq_one, opcode, aField_toNat, bField_toNat]

/-- Settles O50: the decoder takes the branch the reference takes, and each branch is refined by the lemma of its name:
`basic_refOf` with the row's operation, `extended_refOf`, and for a word that does not decode the error both record. -/
theorem stepRefinesTheReferenceStep : Obligations.StepRefinesTheReferenceStep := by
  intro s
  rw [refStep_eq]
  rcases step_cases s with ⟨i, hdecode, hstep⟩ | ⟨e, hdecode, hstep⟩
  · rcases decode_ok hdecode with ⟨mk, a, b, row, ha, hb, rfl⟩ | ⟨escape, assigned, b, hb, rfl⟩
    · have basic : opField (s.readMem s.pc) ≠ 0 := fun escape => by
        rw [basicTable_lookup_eq_none.mpr escape] at row
        cases row
      obtain ⟨operation, meaning, refines⟩ := basicTable_refines row
      obtain ⟨t, completes, same⟩ := basic_refOf refines ha hb (s.setPc (s.pc + 1))
      rw [hstep, meaning, completes, if_pos basic, same]
    · obtain ⟨t, completes, same⟩ := extended_refOf hb (s.setPc (s.pc + 1))
      rw [hstep, completes, if_neg (not_not_intro escape), if_neg (not_not_intro assigned), same]
  · obtain ⟨escape, unassigned, rfl⟩ := decode_error_iff.mp hdecode
    rw [hstep, if_neg (not_not_intro escape), if_pos unassigned]
    rfl

end Sys2Proof.Claims
end

section
/-! What a completed step may change: the canonical form, SKIP, and the frames of SP, O, the general registers and
memory (spec/10_state.md R23 to R30, spec/20_memory.md R55, spec/43_conditional.md R188). -/

namespace Sys2Proof.Machine

section PushWord

variable (s : State) (v : Word)

@[simp] theorem pushWord_getReg (r : Reg) : (s.pushWord v).getReg r = s.getReg r := rfl
@[simp] theorem pushWord_sp : (s.pushWord v).sp = s.sp - 1 := rfl
@[simp] theorem pushWord_o : (s.pushWord v).o = s.o := rfl
@[simp] theorem pushWord_skip : (s.pushWord v).skip = s.skip := rfl
@[simp] theorem pushWord_readMem (x : Word) :
    (s.pushWord v).readMem x = if s.sp - 1 = x then v else s.readMem x := writeMem_readMem _ _ _ _

theorem pushWord_wf (h : s.mem.wf) : (s.pushWord v).mem.wf := writeMem_wf s.decSp s.decSp.sp v h

end PushWord

end Sys2Proof.Machine

namespace Sys2Proof.Claims

open Sys2Proof.Machine

/-- An armed JSR completes with PC, the address after the whole instruction, pushed, and PC at the operand's value
(R201). -/
theorem exec_jsr_armed (b : Operand) {s : State} (armed : s.skip = false) :
    exec (.jsr b) s =
      .next (((resolveOne b s).after.pushWord (s.pc + nextWords b)).setPc (resolveOne b s).value) := by
  show execJsr b s = _
  rw [execJsr_eq, armed, if_neg Bool.false_ne_true, resolveOne_pc]

/-- An armed instruction leaves the state after its operands' resolution with a result and O written, with a result
written, with SKIP written, or with JSR's push and jump made (R122, R123). -/
theorem exec_armed_cases {i : Instr} {s t : State} (armed : s.skip = false) (h : exec i s = .next t) :
    (∃ a b out, operandsOf i = [a, b] ∧ destinationOf i = some a ∧ writesO i = true ∧
      t = (resolveBoth a b s).after.writeResult Config.oDestOrder (s.resolve a).1 out) ∨
    (∃ a b r, operandsOf i = [a, b] ∧ destinationOf i = some a ∧
      t = (resolveBoth a b s).after.writeLoc (s.resolve a).1 r) ∨
    (∃ a b flag, operandsOf i = [a, b] ∧ destinationOf i = none ∧ t = (resolveBoth a b s).after.setSkip flag) ∨
    (∃ b, i = .jsr b ∧
      t = ((resolveOne b s).after.pushWord (s.pc + nextWords b)).setPc (resolveOne b s).value) := by
  rcases exec_shape_operands i with ⟨a, b, alu, hops, hdest, hwrites, hexec⟩ | ⟨a, b, alu, hops, hdest, -, hexec⟩ |
    ⟨a, b, cond, hops, hdest, -, hexec⟩ | ⟨b, rfl⟩
  · rw [hexec, resultStep_eq, armed, if_neg Bool.false_ne_true] at h
    exact .inl ⟨a, b, _, hops, hdest, hwrites, (Host.Outcome.next.inj h).symm⟩
  · rw [hexec, logicStep_eq, armed, if_neg Bool.false_ne_true] at h
    exact .inr (.inl ⟨a, b, _, hops, hdest, (Host.Outcome.next.inj h).symm⟩)
  · rw [hexec, conditionalStep_eq, armed, if_neg Bool.false_ne_true] at h
    exact .inr (.inr (.inl ⟨a, b, _, hops, hdest, (Host.Outcome.next.inj h).symm⟩))
  · rw [exec_jsr_armed b armed] at h
    exact .inr (.inr (.inr ⟨b, rfl, (Host.Outcome.next.inj h).symm⟩))

/-- A step completes only at a legal word (R80, R221). -/
theorem isNext_of_step {s t : State} (h : step s = .next t) : ∃ i, IsNext i s := by
  rcases step_cases s with ⟨i, next, -⟩ | ⟨e, -, errs⟩
  · exact ⟨i, next⟩
  · cases errs.symm.trans h

/-- What a completed step leaves: a skipped one the state of `step_skipped`, an armed one what its instruction leaves
of the fetched state. -/
theorem step_next_cases {i : Instr} {s t : State} (next : IsNext i s) (h : step s = .next t) :
    (s.skip = true ∧ t = { s with pc := s.pc + lengthOf i, sp := s.sp + stackMoveOf i, skip := false }) ∨
    ((s.setPc (s.pc + 1)).skip = false ∧ exec i (s.setPc (s.pc + 1)) = .next t) := by
  cases skipping : s.skip with
  | true => exact .inl ⟨rfl, Host.Outcome.next.inj (h.symm.trans (step_skipped next skipping))⟩
  | false => exact .inr ⟨skipping, (step_of_isNext next).symm.trans h⟩

/-- Settles O48: a skipped step leaves memory alone, and each of the four ways an armed one ends writes memory by an
operation that keeps the canonical form. -/
theorem stepKeepsMemoryCanonical : Obligations.StepKeepsMemoryCanonical := by
  intro s t canonical completes
  obtain ⟨i, next⟩ := isNext_of_step completes
  rcases step_next_cases next completes with ⟨-, rfl⟩ | ⟨armed, hexec⟩
  · exact canonical
  · have resolvedBoth (a b : Operand) : (resolveBoth a b (s.setPc (s.pc + 1))).after.mem.wf := by
      rwa [resolveBoth_mem]
    have resolvedOne (b : Operand) : (resolveOne b (s.setPc (s.pc + 1))).after.mem.wf := by
      rwa [resolveOne_mem]
    rcases exec_armed_cases armed hexec with ⟨a, b, out, -, -, -, rfl⟩ | ⟨a, b, r, -, -, rfl⟩ |
      ⟨a, b, flag, -, -, rfl⟩ | ⟨b, -, rfl⟩
    · exact writeResult_wf _ _ _ _ (resolvedBoth a b)
    · exact writeLoc_wf _ _ _ (resolvedBoth a b)
    · exact resolvedBoth a b
    · exact pushWord_wf _ _ (resolvedOne b)

/-- The instructions without a destination are the conditionals and JSR (the "writes `a`" column of R78, R79). -/
theorem isConditional_or_isJsr {i : Instr} (h : destinationOf i = none) : isConditional i = true ∨ isJsr i := by
  cases i with
  | ife a b => exact .inl rfl
  | ifn a b => exact .inl rfl
  | ifg a b => exact .inl rfl
  | ifb a b => exact .inl rfl
  | jsr b => exact .inr ⟨b, rfl⟩
  | _ => cases h

/-- JSR has one operand, so an instruction with two is not JSR. -/
theorem not_isJsr_of_two_operands {i : Instr} {a b : Operand} (hops : operandsOf i = [a, b]) : ¬isJsr i := by
  rintro ⟨c, rfl⟩
  simp [operandsOf] at hops

/-- SKIP is no probe (R30). -/
theorem introspect_setSkip (s : State) (flag : Bool) (q : Probe) :
    (s.setSkip flag).introspect q = s.introspect q := by
  cases q <;> rfl

/-- An armed instruction that leaves SKIP set is a conditional (R181, R188). -/
theorem isConditional_of_sets_skip {i : Instr} {s t : State} (armed : s.skip = false) (h : exec i s = .next t)
    (sets : t.skip = true) : isConditional i = true := by
  rcases exec_armed_cases armed h with ⟨a, b, out, -, -, -, rfl⟩ | ⟨a, b, r, -, -, rfl⟩ |
    ⟨a, b, flag, hops, hdest, rfl⟩ | ⟨b, rfl, rfl⟩
  · simp at sets
  · simp at sets
  · exact (isConditional_or_isJsr hdest).resolve_right (not_isJsr_of_two_operands hops)
  · simp at sets

/-- Settles O37: a skipped step clears SKIP, so only an armed one can leave it set, and that by a conditional
(`isConditional_of_sets_skip`). -/
theorem skipLastsExactlyOneStep : Obligations.SkipLastsExactlyOneStep := by
  refine ⟨fun s i t next completes sets => ?_, fun s t skipping completes => ?_, introspect_setSkip⟩
  · rcases step_next_cases next completes with ⟨-, rfl⟩ | ⟨armed, hexec⟩
    · cases sets
    · exact ⟨isConditional_of_sets_skip armed hexec sets, armed⟩
  · obtain ⟨i, next⟩ := isNext_of_step completes
    rw [step_skipped next skipping] at completes
    rw [← Host.Outcome.next.inj completes]

/-- Where an instruction, run on the fetched state `s`, writes its result (R120). -/
def resolvedDestination (i : Instr) (s : State) : Option Loc := (destinationOf i).map (fun a => (s.resolve a).1)

theorem resolvedDestination_eq {i : Instr} {a : Operand} (s : State) (hdest : destinationOf i = some a) :
    resolvedDestination i s = some (s.resolve a).1 := by
  rw [resolvedDestination, hdest, Option.map_some]

/-- A location that is not the instruction's destination is not where its first operand resolves. -/
theorem resolve_ne_of_not_destination {i : Instr} {a : Operand} {s : State} {loc : Loc}
    (notDest : resolvedDestination i s ≠ some loc) (hdest : destinationOf i = some a) : (s.resolve a).1 ≠ loc := by
  rw [resolvedDestination_eq s hdest] at notDest
  exact fun same => notDest (congrArg some same)

/-- An armed instruction that is not JSR and has another destination moves SP by its operands' amounts (R27). -/
theorem exec_sp {i : Instr} {s t : State} (armed : s.skip = false) (h : exec i s = .next t)
    (notDest : resolvedDestination i s ≠ some .sp) (notJsr : ¬isJsr i) : t.sp = s.sp + stackMoveOf i := by
  have other {a : Operand} := resolve_ne_of_not_destination (a := a) notDest
  rcases exec_armed_cases armed h with ⟨a, b, out, hops, hdest, -, rfl⟩ | ⟨a, b, r, hops, hdest, rfl⟩ |
    ⟨a, b, flag, hops, -, rfl⟩ | ⟨b, rfl, -⟩
  · simp [other hdest, stackMoveOf, hops, add_assoc]
  · simp [other hdest, stackMoveOf, hops, add_assoc]
  · simp [stackMoveOf, hops, add_assoc]
  · exact absurd ⟨b, rfl⟩ notJsr

/-- An armed JSR leaves SP one below its value after the operand's resolution (R201). -/
theorem exec_jsr_sp {i : Instr} {s t : State} (armed : s.skip = false) (h : exec i s = .next t) (jsr : isJsr i) :
    t.sp = s.sp + stackMoveOf i - 1 := by
  obtain ⟨b, rfl⟩ := jsr
  rw [exec_jsr_armed b armed] at h
  rw [← Host.Outcome.next.inj h]
  simp [stackMoveOf, operandsOf]

/-- Settles O39: a skipped step by its equation, an armed one by `exec_sp` and `exec_jsr_sp`. -/
theorem spChangesOnlyByStackModesJsrOrAsDestination : Obligations.SpChangesOnlyByStackModesJsrOrAsDestination := by
  intro s i t next completes
  rcases step_next_cases next completes with ⟨skipping, rfl⟩ | ⟨armed, hexec⟩
  · exact ⟨fun _ => rfl, fun armed => by simp [skipping] at armed⟩
  · refine ⟨fun keeps => ?_, fun _ jsr => exec_jsr_sp (s := s.setPc (s.pc + 1)) armed hexec jsr⟩
    obtain ⟨notDest, notJsr⟩ := keeps.resolve_left (ne_true_of_eq_false armed)
    exact exec_sp (s := s.setPc (s.pc + 1)) armed hexec notDest notJsr

/-- An armed instruction that does not write O and has another destination keeps O (R28). -/
theorem exec_keeps_o {i : Instr} {s t : State} (armed : s.skip = false) (h : exec i s = .next t)
    (noWriter : writesO i ≠ true) (notDest : resolvedDestination i s ≠ some .o) : t.o = s.o := by
  rcases exec_armed_cases armed h with ⟨a, b, out, -, -, writes, rfl⟩ | ⟨a, b, r, -, hdest, rfl⟩ |
    ⟨a, b, flag, -, -, rfl⟩ | ⟨b, -, rfl⟩
  · exact absurd writes noWriter
  · simp [resolve_ne_of_not_destination notDest hdest]
  · simp
  · simp

/-- Settles O40: a skipped step keeps O, and an armed one keeps it unless it is a writer of O (`exec_keeps_o`). -/
theorem oChangesOnlyByItsWriters : Obligations.OChangesOnlyByItsWriters := by
  intro s i t next completes changed
  rcases step_next_cases next completes with ⟨-, rfl⟩ | ⟨armed, hexec⟩
  · exact absurd rfl changed
  · refine ⟨armed, ?_⟩
    by_contra noWriter
    obtain ⟨noWriter, notDest⟩ := not_or.mp noWriter
    exact changed (exec_keeps_o (s := s.setPc (s.pc + 1)) armed hexec noWriter notDest)

/-- An armed instruction keeps every general register but its destination (R23). -/
theorem exec_keeps_reg {i : Instr} {s t : State} {r : Reg} (armed : s.skip = false) (h : exec i s = .next t)
    (notDest : resolvedDestination i s ≠ some (.reg r)) : t.getReg r = s.getReg r := by
  have other {a : Operand} := resolve_ne_of_not_destination (a := a) notDest
  rcases exec_armed_cases armed h with ⟨a, b, out, -, hdest, -, rfl⟩ | ⟨a, b, v, -, hdest, rfl⟩ |
    ⟨a, b, flag, -, -, rfl⟩ | ⟨b, -, rfl⟩
  · simp [other hdest]
  · simp [other hdest]
  · simp
  · simp

/-- Settles O41: a skipped step keeps every register, an armed one every register but its destination
(`exec_keeps_reg`). -/
theorem registerChangesOnlyAsDestination : Obligations.RegisterChangesOnlyAsDestination := by
  intro s i t r next completes changed
  rcases step_next_cases next completes with ⟨-, rfl⟩ | ⟨armed, hexec⟩
  · exact absurd rfl changed
  · refine ⟨armed, ?_⟩
    by_contra notDest
    exact changed (exec_keeps_reg (s := s.setPc (s.pc + 1)) armed hexec notDest)

/-- An armed instruction keeps every memory word that is neither its destination nor, for JSR, the push slot (R55,
R201). -/
theorem exec_keeps_mem {i : Instr} {s t : State} {x : Word} (armed : s.skip = false) (h : exec i s = .next t)
    (notDest : resolvedDestination i s ≠ some (.mem x))
    (notSlot : ∀ b, i = .jsr b → (resolveOne b s).after.sp - 1 ≠ x) : t.readMem x = s.readMem x := by
  have other {a : Operand} := resolve_ne_of_not_destination (a := a) notDest
  rcases exec_armed_cases armed h with ⟨a, b, out, -, hdest, -, rfl⟩ | ⟨a, b, v, -, hdest, rfl⟩ |
    ⟨a, b, flag, -, -, rfl⟩ | ⟨b, rfl, rfl⟩
  · simp [other hdest]
  · simp [other hdest]
  · simp
  · rw [setPc_readMem, pushWord_readMem, if_neg (notSlot b rfl), resolveOne_readMem]

/-- The store address of an armed instruction with a destination is its destination's address (R55). -/
theorem storeAddress_of_destination {i : Instr} {s : State} {loc : Loc} (armed : s.skip = false)
    (hdest : destinationLoc i s = some loc) : storeAddress i s = addressOf loc := by
  cases i with
  | jsr b => cases hdest
  | _ => simp [storeAddress, armed, hdest]

/-- The store address of an armed JSR is its push slot (R201). -/
theorem storeAddress_jsr {b : Operand} {s : State} (armed : s.skip = false) :
    storeAddress (.jsr b) s = some ((resolveOne b (s.setPc (s.pc + 1))).after.sp - 1) := by
  rw [storeAddress, armed]
  rfl

/-- Settles O42: a skipped step keeps memory, an armed one every word but that at its store address
(`exec_keeps_mem`). -/
theorem stepStoresOnlyAtItsStoreAddress : Obligations.StepStoresOnlyAtItsStoreAddress := by
  intro s i t next completes x elsewhere
  rcases step_next_cases next completes with ⟨-, rfl⟩ | ⟨armed, hexec⟩
  · rfl
  · refine exec_keeps_mem (s := s.setPc (s.pc + 1)) armed hexec (fun isDest => elsewhere ?_)
      (fun b jsr same => elsewhere ?_)
    · exact storeAddress_of_destination (s := s) armed isDest
    · rw [jsr, storeAddress_jsr (s := s) armed, same]

end Sys2Proof.Claims
end

section
/-! What each armed instruction leaves (spec/41_move_arith.md, spec/42_shift_logic.md, spec/43_conditional.md,
spec/44_extended.md, spec/60_exceptions.md R224). -/

namespace Sys2Proof.Machine

/-- An ALU output whose two words are the number 0. -/
theorem AluOut.eq_zero {out : AluOut} (result : out.result.toNat = 0) (overflow : out.overflow.toNat = 0) :
    out = { result := 0, overflow := 0 } := by
  obtain ⟨r, ov⟩ := out
  obtain rfl : r = 0 := BitVec.eq_of_toNat_eq result
  obtain rfl : ov = 0 := BitVec.eq_of_toNat_eq overflow
  rfl

section Alu

variable (va vb : Word)

/-- ADD's overflow value is the carry (R142). -/
theorem aluAdd_overflow : (aluAdd va vb).overflow = if 65536 ≤ va.toNat + vb.toNat then 1 else 0 := rfl

/-- DIV on unsigned numbers, a zero divisor included: division by 0 gives 0 (R145). -/
theorem aluDiv_toNat :
    (aluDiv va vb).result.toNat = va.toNat / vb.toNat ∧
    (aluDiv va vb).overflow.toNat = va.toNat * 65536 / vb.toNat % 65536 := by
  by_cases zero : vb = 0
  · rw [zero, aluDiv_zero]
    simp
  · have fits : va.toNat / vb.toNat < 65536 := lt_of_le_of_lt (Nat.div_le_self _ _) va.isLt
    simp only [aluDiv, if_neg zero, trunc16, BitVec.toNat_ofNat, Nat.shiftLeft_eq]
    exact ⟨Nat.mod_eq_of_lt fits, trivial⟩

/-- MOD on unsigned numbers (R146). -/
theorem aluMod_toNat :
    (aluMod va vb).result.toNat = if vb.toNat = 0 then 0 else va.toNat % vb.toNat := by
  by_cases zero : vb = 0
  · rw [zero, aluMod_zero]
    rfl
  · have nonzero : vb.toNat ≠ 0 := fun h => zero (BitVec.eq_of_toNat_eq h)
    have fits : va.toNat % vb.toNat < 65536 := lt_of_le_of_lt (Nat.mod_le _ _) va.isLt
    rw [aluMod, if_neg zero, if_neg nonzero, trunc16, BitVec.toNat_ofNat]
    exact Nat.mod_eq_of_lt fits

section LongShift

variable {va vb} (long : 32 ≤ vb.toNat)
include long

/-- A left shift by 32 or more leaves nothing in the low 32 bits (R160). -/
theorem aluShl_of_ge : aluShl va vb = { result := 0, overflow := 0 } := by
  obtain ⟨result, overflow⟩ := aluShl_toNat va vb
  obtain ⟨k, hk⟩ := Nat.exists_eq_add_of_le long
  have product : va.toNat * 2 ^ vb.toNat = va.toNat * 2 ^ k * 65536 * 65536 := by
    rw [hk]
    ring
  apply AluOut.eq_zero
  · rw [result, product, Nat.mul_mod_left]
  · rw [overflow, product, Nat.mul_div_cancel _ (by decide), Nat.mul_mod_left]

/-- A right shift by 32 or more leaves nothing, not even among the 16 bits below the binary point (R160). -/
theorem aluShr_of_ge : aluShr va vb = { result := 0, overflow := 0 } := by
  obtain ⟨result, overflow⟩ := aluShr_toNat va vb
  have small : va.toNat < 65536 := va.isLt
  have large : 2 ^ 32 ≤ 2 ^ vb.toNat := Nat.pow_le_pow_right (by decide) long
  apply AluOut.eq_zero
  · rw [result, Nat.div_eq_of_lt (by omega)]
  · rw [overflow, Nat.div_eq_of_lt (by omega)]

end LongShift

/-- IFE is unmet by different numbers (R182). -/
theorem condEqual_eq_false : condEqual va vb = false ↔ va.toNat ≠ vb.toNat := by
  simp [condEqual, BitVec.toNat_inj]

/-- IFN is unmet by equal numbers (R183). -/
theorem condNotEqual_eq_false : condNotEqual va vb = false ↔ va.toNat = vb.toNat := by
  simp [condNotEqual, BitVec.toNat_inj]

/-- IFG is unmet when the first number is at most the second (R184). -/
theorem condGreater_eq_false : condGreater va vb = false ↔ va.toNat ≤ vb.toNat := by
  simp [condGreater]

/-- IFB is unmet when no bit is common (R185). -/
theorem condAnyBit_eq_false :
    condAnyBit va vb = false ↔ ∀ k < 16, ¬(va.getLsbD k = true ∧ vb.getLsbD k = true) := by
  have noBit : va &&& vb = 0 ↔ ∀ k < 16, (va &&& vb).getLsbD k = false := by
    constructor
    · intro zero k _
      rw [zero]
      exact BitVec.getLsbD_zero
    · intro clear
      exact BitVec.eq_of_getLsbD_eq fun k hk => (clear k hk).trans BitVec.getLsbD_zero.symm
  simp only [condAnyBit, ne_eq, decide_not, Bool.not_eq_false', decide_eq_true_eq, noBit, BitVec.getLsbD_and,
    ← Bool.and_eq_true, Bool.not_eq_true]

end Alu

end Sys2Proof.Machine

namespace Sys2Proof.Claims

open Sys2Proof.Machine

/-- An armed instruction that writes its destination only completes, and leaves O unless O is that destination (R122).
-/
theorem logicStep_armed (alu : Word → Word → Word) (a b : Operand) {s : State} (armed : s.skip = false) :
    ∃ t, logicStep alu a b s = .next t ∧
      WritesResultOnly a b s t (alu (resolveBoth a b s).destValue (resolveBoth a b s).sourceValue) := by
  refine ⟨_, logicStep_eq a b s alu, ?_⟩
  rw [armed, if_neg Bool.false_ne_true]
  refine ⟨fun q => ?registers, fun x => ?memory, ?sp, ?pc, ?o, ?skip⟩
  case registers => rw [writeLoc_getReg, resolveBoth_getReg]
  case memory => rw [writeLoc_readMem, resolveBoth_readMem]
  case sp => rw [writeLoc_sp, resolveBoth_sp]
  case pc => rw [writeLoc_pc, resolveBoth_pc]
  case o => rw [writeLoc_o, resolveBoth_o]
  case skip => rw [writeLoc_skip, resolveBoth_skip]

/-- An armed conditional completes and sets SKIP exactly when its condition is unmet (R181). -/
theorem conditionalStep_armed (cond : Word → Word → Bool) (a b : Operand) {s : State} (armed : s.skip = false)
    {unmet : Prop} (hunmet : cond (resolveBoth a b s).destValue (resolveBoth a b s).sourceValue = false ↔ unmet) :
    ∃ t, conditionalStep cond a b s = .next t ∧ WritesSkipOnly a b s t unmet := by
  refine ⟨_, conditionalStep_eq a b s cond, ?_⟩
  rw [armed, if_neg Bool.false_ne_true]
  refine ⟨fun q => resolveBoth_getReg a b s q, fun x => resolveBoth_readMem a b s x, resolveBoth_sp a b s,
    resolveBoth_pc a b s, resolveBoth_o a b s, ?_⟩
  rw [setSkip_skip, Bool.not_eq_true', hunmet]

/-- Settles O20: the sum and the carry are ADD's two outputs. -/
theorem addWritesSumAndCarry : Obligations.AddWritesSumAndCarry := by
  intro a b s armed
  obtain ⟨t, completes, writes⟩ := resultStep_armed aluAdd a b armed
  rw [aluAdd_result, aluAdd_overflow] at writes
  exact ⟨t, completes, writes⟩

/-- Settles O21: the difference and the borrow are SUB's two outputs. -/
theorem subWritesDifferenceAndBorrow : Obligations.SubWritesDifferenceAndBorrow := by
  intro a b s armed
  obtain ⟨t, completes, writes⟩ := resultStep_armed aluSub a b armed
  rw [aluSub_result, aluSub_overflow] at writes
  exact ⟨t, completes, writes⟩

/-- Settles O22: MUL's two outputs make up the product (`aluMul_product`). -/
theorem mulWritesLowAndHighWord : Obligations.MulWritesLowAndHighWord := by
  intro a b s armed
  obtain ⟨t, completes, writes⟩ := resultStep_armed aluMul a b armed
  exact ⟨t, _, _, completes, writes, aluMul_product _ _⟩

/-- Settles O23: DIV's two outputs are quotient and fraction (`aluDiv_toNat`). -/
theorem divWritesQuotientAndFraction : Obligations.DivWritesQuotientAndFraction := by
  intro a b s armed
  obtain ⟨t, completes, writes⟩ := resultStep_armed aluDiv a b armed
  exact ⟨t, _, _, completes, writes, aluDiv_toNat _ _⟩

/-- Settles O24: MOD's outputs are the remainder (`aluMod_toNat`) and 0 (`aluMod_overflow`). -/
theorem modWritesRemainderAndClearsO : Obligations.ModWritesRemainderAndClearsO := by
  intro a b s armed
  obtain ⟨t, completes, writes⟩ := resultStep_armed aluMod a b armed
  rw [aluMod_overflow] at writes
  exact ⟨t, _, completes, writes, aluMod_toNat _ _⟩

/-- Settles O25: a left shift is a multiplication by a power of two (`aluShl_toNat`). -/
theorem shlWritesShiftedAndLostBits : Obligations.ShlWritesShiftedAndLostBits := by
  intro a b s armed
  obtain ⟨t, completes, writes⟩ := resultStep_armed aluShl a b armed
  exact ⟨t, _, _, completes, writes, aluShl_toNat _ _⟩

/-- Settles O26: a right shift is a division by a power of two (`aluShr_toNat`). -/
theorem shrWritesShiftedAndLostBits : Obligations.ShrWritesShiftedAndLostBits := by
  intro a b s armed
  obtain ⟨t, completes, writes⟩ := resultStep_armed aluShr a b armed
  exact ⟨t, _, _, completes, writes, aluShr_toNat _ _⟩

/-- Settles O27: both shifts give 0 and 0 from 32 on (`aluShl_of_ge`, `aluShr_of_ge`). -/
theorem shiftBy32OrMoreGivesZero : Obligations.ShiftBy32OrMoreGivesZero := by
  intro a b s armed long
  obtain ⟨t, shifts, writes⟩ := resultStep_armed aluShl a b armed
  obtain ⟨u, shiftsRight, writesRight⟩ := resultStep_armed aluShr a b armed
  rw [aluShl_of_ge long] at writes
  rw [aluShr_of_ge long] at writesRight
  exact ⟨⟨t, shifts, writes⟩, ⟨u, shiftsRight, writesRight⟩⟩

/-- Settles O14: every instruction completes (`exec_completes`); with a zero divisor DIV's and MOD's outputs are both
0; and a literal is no location to write. -/
theorem nothingAnInstructionDoesIsAnError : Obligations.NothingAnInstructionDoesIsAnError := by
  refine ⟨exec_completes, fun a b s armed zeroNat => ?_, fun _ _ _ => rfl⟩
  have zero : (resolveBoth a b s).sourceValue = 0 := BitVec.eq_of_toNat_eq zeroNat
  obtain ⟨t, divides, writes⟩ := resultStep_armed aluDiv a b armed
  obtain ⟨u, takesRest, writesRest⟩ := resultStep_armed aluMod a b armed
  rw [zero, aluDiv_zero] at writes
  rw [zero, aluMod_zero] at writesRest
  exact ⟨⟨t, divides, writes⟩, ⟨u, takesRest, writesRest⟩⟩

/-- Settles O28: the result is the bitwise and of the two values. -/
theorem andWritesCommonBits : Obligations.AndWritesCommonBits := by
  intro a b s armed
  obtain ⟨t, completes, writes⟩ := logicStep_armed aluAnd a b armed
  refine ⟨t, _, completes, writes, fun k _ => ?_⟩
  simp only [aluAnd, BitVec.getLsbD_and, Bool.and_eq_true]

/-- Settles O29: the result is the bitwise or of the two values. -/
theorem orWritesEitherBits : Obligations.OrWritesEitherBits := by
  intro a b s armed
  obtain ⟨t, completes, writes⟩ := logicStep_armed aluOr a b armed
  refine ⟨t, _, completes, writes, fun k _ => ?_⟩
  simp only [aluOr, BitVec.getLsbD_or, Bool.or_eq_true]

/-- Settles O30: the result is the bitwise exclusive or of the two values. -/
theorem xorWritesDifferingBits : Obligations.XorWritesDifferingBits := by
  intro a b s armed
  obtain ⟨t, completes, writes⟩ := logicStep_armed aluXor a b armed
  refine ⟨t, _, completes, writes, fun k _ => ?_⟩
  simp only [aluXor, BitVec.getLsbD_xor, bne_iff_ne]

/-- Settles O31: SKIP is set when the condition fails, which is `condEqual_eq_false`. -/
theorem ifeSkipsUnlessEqual : Obligations.IfeSkipsUnlessEqual := fun a b _ armed =>
  conditionalStep_armed condEqual a b armed (condEqual_eq_false _ _)

/-- Settles O32: SKIP is set when the condition fails, which is `condNotEqual_eq_false`. -/
theorem ifnSkipsWhenEqual : Obligations.IfnSkipsWhenEqual := fun a b _ armed =>
  conditionalStep_armed condNotEqual a b armed (condNotEqual_eq_false _ _)

/-- Settles O33: SKIP is set when the condition fails, which is `condGreater_eq_false`. -/
theorem ifgSkipsUnlessGreater : Obligations.IfgSkipsUnlessGreater := fun a b _ armed =>
  conditionalStep_armed condGreater a b armed (condGreater_eq_false _ _)

/-- Settles O34: SKIP is set when the condition fails, which is `condAnyBit_eq_false`. -/
theorem ifbSkipsWithoutCommonBit : Obligations.IfbSkipsWithoutCommonBit := fun a b _ armed =>
  conditionalStep_armed condAnyBit a b armed (condAnyBit_eq_false _ _)

/-- Settles O35: each part is what the push, the jump and the operand's resolution leave of that component. -/
theorem jsrPushesReturnAddressAndJumps : Obligations.JsrPushesReturnAddressAndJumps := by
  intro b s armed
  refine ⟨_, exec_jsr_armed b armed, rfl, rfl, resolveOne_sp b s, fun x => ?memory, fun q => ?registers, ?o, ?skip⟩
  case memory => rw [setPc_readMem, pushWord_readMem, resolveOne_readMem, if_congr eq_comm rfl rfl]
  case registers => rw [setPc_getReg, pushWord_getReg, resolveOne_getReg]
  case o => rw [setPc_o, pushWord_o, resolveOne_o]
  case skip => rw [setPc_skip, pushWord_skip, resolveOne_skip]

end Sys2Proof.Claims
end

section
/-! Loading, reset, step errors and the run loop (spec/00_scope.md R12, R16, spec/60_exceptions.md R220 to R223,
spec/70_reset_and_hazards.md R250, R254). -/

namespace Sys2Proof.Claims

open Sys2Proof.Machine

theorem encodeOperand_regNextMem (i : BitVec 3) :
    encodeOperand (.regNextMem (Reg.ofIndex i)) = 0x10 + i.setWidth 6 := by
  simp [encodeOperand]

/-- Settles O7: the descriptor encodes the mode, and the sum of two words is taken modulo 2^16. -/
theorem registerPlusNextWordWraps : Obligations.RegisterPlusNextWordWraps := by
  intro s i
  refine ⟨s.getReg (Reg.ofIndex i) + s.readMem s.pc, ?_, BitVec.toNat_add _ _⟩
  rw [← encodeOperand_regNextMem]
  exact resolvesTo_encodeOperand s rfl

/-- Settles O10: what `step` adds around `exec` is said by `step_of_isNext`. -/
theorem stepRunsTheDecodedInstruction : Obligations.StepRunsTheDecodedInstruction := fun _ _ => step_of_isNext

/-- A step at a word that does not decode is its step error (R220). -/
theorem step_of_decode_error {s : State} {e : DecodeError} (h : decode (s.readMem s.pc) = .error e) :
    step s = .fault (raiseStepError e (s.readMem s.pc) s.pc) := by
  rcases step_cases s with ⟨i, next, -⟩ | ⟨e', hdecode, errs⟩
  · cases next.symm.trans h
  · rw [errs, Except.error.inj (hdecode.symm.trans h)]

/-- A step errs only at an extended word with no table entry (R221). -/
theorem illegal_of_step_fault {s : State} {f : Fault} (h : step s = .fault f) :
    opField (s.readMem s.pc) = 0 ∧ aField (s.readMem s.pc) ≠ 1 := by
  rcases step_cases s with ⟨i, -, hstep⟩ | ⟨e, hdecode, -⟩
  · obtain ⟨t, completes⟩ := exec_completes i (s.setPc (s.pc + 1))
    cases h.symm.trans (hstep.trans completes)
  · obtain ⟨escape, unassigned, -⟩ := decode_error_iff.mp hdecode
    exact ⟨escape, unassigned⟩

/-- Settles O11: the illegal words are those of `decode_error_iff`, and what the error records is `step_fault`. -/
theorem unassignedExtendedWordIsAStepError : Obligations.UnassignedExtendedWordIsAStepError := by
  refine ⟨fun s escape unassigned => ?_, fun s ext w addr errs => ?_⟩
  · rw [← aField_eq_ofNat]
    exact step_of_decode_error
      (decode_error_iff.mpr ⟨opField_eq_zero.mpr escape, mt aField_eq_one.mp unassigned, rfl⟩)
  · obtain ⟨rfl, rfl, rfl⟩ := Fault.unrecognizedExtendedOpcode.inj (step_fault errs)
    obtain ⟨escape, unassigned⟩ := illegal_of_step_fault errs
    exact ⟨rfl, rfl, opField_eq_zero.mp escape, aField_eq_ofNat _, unassigned⟩

/-- Settles O13: every instruction completes (`exec_completes`), and every other word is an unassigned extended one. -/
theorem everyStepCompletesOrErrs : Obligations.EveryStepCompletesOrErrs := by
  intro s
  rcases step_cases s with ⟨i, -, hstep⟩ | ⟨e, hdecode, hstep⟩
  · rw [hstep]
    exact .inl (exec_completes i _)
  · obtain rfl := decode_error hdecode
    exact .inr ⟨_, hstep⟩

/-- Settles O15: register by register, and every word of the empty memory is unlisted. -/
theorem resetState : Obligations.ResetState := by
  refine ⟨fun r => ?_, rfl, rfl, rfl, rfl, fun _ => rfl⟩
  cases r <;> rfl

/-- Settles O16: the empty memory has no cell to be out of order. -/
theorem resetMemoryIsCanonical : Obligations.ResetMemoryIsCanonical :=
  ⟨List.Pairwise.nil, fun _ listed => absurd listed List.not_mem_nil⟩

/-- Settles O17: what loading leaves at an address is `read_load`, and that the result is canonical `load_wf`. -/
theorem loadStoresTheImageAtZero : Obligations.LoadStoresTheImageAtZero := by
  intro image fits
  refine ⟨Memory.load State.reset.mem 0 image, if_pos fits, ?canonical, fun x => ?word⟩
  case canonical => exact load_wf image _ 0 (by rwa [Nat.zero_add]) resetMemoryIsCanonical
  case word =>
    have loaded := read_load image State.reset.mem 0 x.toNat
    simp only [Nat.zero_le, true_and, Nat.zero_add, Nat.sub_zero] at loaded
    exact loaded

/-- Settles O18: the loader compares the length before it stores anything. -/
theorem overlongImageIsRefused : Obligations.OverlongImageIsRefused := fun _ overlong =>
  if_neg (Nat.not_le.mpr overlong)

/-- Settles O51: the fault is that of an unassigned extended word (`step_fault`), whose frame is
`mem_abortedFetchStates`. -/
theorem stepErrorChangesAtMostPcAndSkip : Obligations.StepErrorChangesAtMostPcAndSkip := by
  intro s f errs
  obtain rfl := step_fault errs
  refine ⟨fun t left => ?_, fun pc skip hpc hskip => (mem_abortedFetchStates s _).mpr ⟨pc, skip, rfl, hpc, hskip⟩⟩
  obtain ⟨pc, skip, rfl, hpc, hskip⟩ := (mem_abortedFetchStates s t).mp left
  refine ⟨fun q notPc => ?_, hpc, hskip⟩
  cases q with
  | pc => exact absurd rfl notPc
  | _ => rfl

/-! ### The run loop -/

section Run

variable {halt : State → Bool} {s : State} (n : Nat)

theorem runUntil_halted (halted : halt s = true) : runUntil halt n s = .next s := by
  cases n with
  | zero => rfl
  | succ n => exact if_pos halted

theorem runEndsIn_halted (halted : halt s = true) (t : State) : runEndsIn halt n s t ↔ t = s := by
  cases n with
  | zero => rfl
  | succ n => simp [runEndsIn, halted]

section Running

variable (running : halt s = false)
include running

theorem runUntil_next {t : State} (completes : step s = .next t) : runUntil halt (n + 1) s = runUntil halt n t := by
  simp [runUntil, running, completes]

theorem runEndsIn_next {t : State} (completes : step s = .next t) (u : State) :
    runEndsIn halt (n + 1) s u ↔ runEndsIn halt n t u := by
  simp [runEndsIn, running, completes]

theorem runUntil_fault {f : Fault} (errs : step s = .fault f) : runUntil halt (n + 1) s = .fault f := by
  simp [runUntil, running, errs]

theorem runEndsIn_fault {f : Fault} (errs : step s = .fault f) (u : State) :
    runEndsIn halt (n + 1) s u ↔ stateAfterError f s u := by
  simp [runEndsIn, running, errs]

end Running

end Run

/-- The run of `n` steps from `s` ends in the error `f`, raised by the step after some number of error-free ones, and
no later step runs (R223). -/
def EndsAtFirstError (halt : State → Bool) (n : Nat) (s : State) (f : Fault) : Prop :=
  ∃ k < n, ∃ u, runUntil halt k s = .next u ∧ halt u = false ∧ step u = .fault f ∧
    (∀ m, k < m → runUntil halt m s = .fault f) ∧ ∀ t, runEndsIn halt n s t ↔ stateAfterError f u t

/-- An erring step is the first error of every run that begins with it. -/
theorem endsAtFirstError_fault {halt : State → Bool} {s : State} {f : Fault} (n : Nat) (running : halt s = false)
    (errs : step s = .fault f) : EndsAtFirstError halt (n + 1) s f := by
  refine ⟨0, n.succ_pos, s, rfl, running, errs, fun m later => ?_, runEndsIn_fault n running errs⟩
  obtain ⟨m, rfl⟩ := Nat.exists_eq_add_one.mpr later
  exact runUntil_fault m running errs

/-- A completed step before a run that ends in an error puts the error one step later. -/
theorem EndsAtFirstError.after_step {halt : State → Bool} {n : Nat} {s t : State} {f : Fault}
    (ends : EndsAtFirstError halt n t f) (running : halt s = false) (completes : step s = .next t) :
    EndsAtFirstError halt (n + 1) s f := by
  obtain ⟨k, before, u, reaches, runningThere, errs, terminal, found⟩ := ends
  refine ⟨k + 1, Nat.succ_lt_succ before, u, ?_, runningThere, errs, fun m later => ?_, fun v => ?_⟩
  · rw [runUntil_next k running completes, reaches]
  · obtain ⟨m, rfl⟩ := Nat.exists_eq_add_one.mpr (Nat.zero_lt_of_lt later)
    rw [runUntil_next m running completes, terminal m (Nat.lt_of_succ_lt_succ later)]
  · rw [runEndsIn_next n running completes, found]

/-- Settles O52, by induction on the fuel: the run is over, or its first step errs, or it completes and the run goes
on from the next state. -/
theorem runEndsAtItsFirstStepError : Obligations.RunEndsAtItsFirstStepError := by
  intro halt n
  show ∀ s, (∀ f, runUntil halt n s = .fault f → EndsAtFirstError halt n s f) ∧
    ∀ u, runUntil halt n s = .next u → ∀ t, runEndsIn halt n s t ↔ t = u
  induction n with
  | zero =>
    refine fun s => ⟨fun f errs => ?_, fun u ends t => ?_⟩
    · cases errs
    · rw [← Host.Outcome.next.inj ends]
      rfl
  | succ n ih =>
    intro s
    cases running : halt s with
    | true =>
      rw [runUntil_halted (n + 1) running]
      refine ⟨fun f errs => ?_, fun u ends t => ?_⟩
      · cases errs
      · rw [runEndsIn_halted (n + 1) running, Host.Outcome.next.inj ends]
    | false =>
      rcases everyStepCompletesOrErrs s with ⟨t, completes⟩ | ⟨ext, errs⟩
      · obtain ⟨errors, halts⟩ := ih t
        rw [runUntil_next n running completes]
        refine ⟨fun f errs => (errors f errs).after_step running completes, fun u ends v => ?_⟩
        rw [runEndsIn_next n running completes, halts u ends]
      · rw [runUntil_fault n running errs]
        refine ⟨fun f same => ?_, fun u ends => ?_⟩
        · rw [← Host.Outcome.fault.inj same]
          exact endsAtFirstError_fault n running errs
        · cases ends

end Sys2Proof.Claims
end

section
/-! A canonical memory is the words it reads as, and what the host reads, with SKIP, is the whole state
(spec/00_scope.md R14, spec/10_state.md R30, R31). -/

namespace Sys2Proof.Machine

/-- A word that does not read as unlisted has an entry. -/
theorem mem_of_read {m : Memory} {k : Nat} {v : Word} (reads : m.read k = v) (listed : v ≠ Config.unlistedWord) :
    (k, v) ∈ m := by
  induction m with
  | nil => exact absurd reads.symm listed
  | cons cell m ih =>
    obtain ⟨k', v'⟩ := cell
    by_cases here : k' = k
    · rw [Memory.read, if_pos here] at reads
      simp [here, reads]
    · rw [Memory.read, if_neg here] at reads
      exact List.mem_cons_of_mem _ (ih reads)

/-- An entry of a list with rising addresses is what its address reads as. -/
theorem read_of_mem {m : Memory} (rising : m.Pairwise (fun p q => p.1 < q.1)) {k : Nat} {v : Word}
    (listed : (k, v) ∈ m) : m.read k = v := by
  induction m with
  | nil => exact absurd listed List.not_mem_nil
  | cons cell m ih =>
    obtain ⟨k', v'⟩ := cell
    obtain ⟨below, risingRest⟩ := List.pairwise_cons.mp rising
    rcases List.mem_cons.mp listed with here | later
    · obtain ⟨rfl, rfl⟩ := Prod.mk.inj here
      exact if_pos rfl
    · have elsewhere : k' ≠ k := (below (k, v) later).ne
      rw [Memory.read, if_neg elsewhere]
      exact ih risingRest later

/-- The entries of a canonical memory are among those of a memory that reads alike. -/
theorem subset_of_read_eq {m n : Memory} (canonical : m.wf) (alike : ∀ x : Word, m.read x.toNat = n.read x.toNat) :
    ∀ cell ∈ m, cell ∈ n := by
  rintro ⟨k, v⟩ listed
  obtain ⟨rising, inside⟩ := canonical
  obtain ⟨below, nonzero⟩ := inside (k, v) listed
  have address : (BitVec.ofNat 16 k).toNat = k := Nat.mod_eq_of_lt below
  have reads := alike (BitVec.ofNat 16 k)
  rw [address, read_of_mem rising listed] at reads
  exact mem_of_read reads.symm nonzero

/-- Two canonical memories that read alike at every address are equal (log entry 1). -/
theorem Memory.ext_read {m n : Memory} (hm : m.wf) (hn : n.wf)
    (alike : ∀ x : Word, m.read x.toNat = n.read x.toNat) : m = n := by
  have irrefl : Std.Irrefl (fun p q : Nat × Word => p.1 < q.1) := ⟨fun p => lt_irrefl p.1⟩
  have antisymm : Std.Antisymm (fun p q : Nat × Word => p.1 < q.1) :=
    ⟨fun _ _ less greater => absurd greater less.asymm⟩
  refine List.Pairwise.eq_of_mem_iff hm.1 hn.1 fun cell => ⟨subset_of_read_eq hm alike cell, ?_⟩
  exact subset_of_read_eq hn (fun x => (alike x).symm) cell

/-- Storing a word where it already stands changes nothing in a canonical memory. -/
theorem writeMem_readMem_self {s : State} (canonical : s.mem.wf) (addr : Word) :
    s.writeMem addr (s.readMem addr) = s := by
  have same : (s.writeMem addr (s.readMem addr)).mem = s.mem := by
    refine Memory.ext_read (writeMem_wf s addr _ canonical) canonical fun x => ?_
    show (s.writeMem addr (s.readMem addr)).readMem x = s.readMem x
    rw [writeMem_readMem]
    split
    · next here => rw [here]
    · rfl
  exact congrArg (fun m => { s with mem := m }) same

end Sys2Proof.Machine

namespace Sys2Proof.Claims

open Sys2Proof.Machine

/-- Settles O49: registers are equal by reading each, memories by `Memory.ext_read`. -/
theorem introspectionShowsEverythingButSkip : Obligations.IntrospectionShowsEverythingButSkip := by
  refine ⟨fun s t hs ht alike => ?_, introspect_setSkip⟩
  have registers : s.regs = t.regs := Regs.ext_get _ _ fun r => alike (.reg r)
  have memory : s.mem = t.mem := Memory.ext_read hs ht fun x => alike (.mem x)
  have pc : s.pc = t.pc := alike .pc
  have sp : s.sp = t.sp := alike .sp
  have o : s.o = t.o := alike .o
  rw [State.setSkip, registers, memory, pc, sp, o]

end Sys2Proof.Claims
end

section
/-! Instructions that work together on the stack, and instructions whose operands interact
(spec/40_cycle_and_operands.md R125, R130, R131, spec/44_extended.md R204). -/

namespace Sys2Proof.Machine

variable (a : Operand) (s : State)

/-- A register source is read as it stands (R105). -/
theorem sourceValue_reg (r : Reg) : (resolveBoth a (.reg r) s).sourceValue = s.getReg r := resolveBoth_getReg a _ s r

/-- A popped source is the word at SP as the destination's resolution left it (R108). -/
theorem sourceValue_pop : (resolveBoth a .pop s).sourceValue = s.readMem (s.sp + stackMove a) := by
  have address : (resolveBoth a .pop s).source = .mem (s.sp + stackMove a) :=
    congrArg Loc.mem (resolve_sp s a)
  rw [Resolved.sourceValue, address]
  exact resolveBoth_readMem a .pop s _

/-- A next-word literal is the word at PC as the destination's resolution left it (R115). -/
theorem sourceValue_nextLit : (resolveBoth a .nextLit s).sourceValue = s.readMem (s.pc + nextWords a) := by
  show (s.resolve a).2.readMem (s.resolve a).2.pc = _
  rw [resolve_readMem, resolve_pc]

end Sys2Proof.Machine

namespace Sys2Proof.Claims

open Sys2Proof.Machine

/-- SET r, POP in an armed state loads the word at SP and moves SP up (R131). -/
theorem exec_set_reg_pop (r : Reg) {s : State} (armed : s.skip = false) :
    ∃ t, exec (.set (.reg r) .pop) s = .next t ∧
      (∀ q, t.getReg q = if r = q then s.readMem s.sp else s.getReg q) ∧ t.sp = s.sp + 1 ∧
      ∀ x, t.readMem x = s.readMem x := by
  obtain ⟨t, completes, registers, memory, sp, -⟩ := exec_set_armed (.reg r) .pop armed
  have popped : (resolveBoth (.reg r) .pop s).sourceValue = s.readMem s.sp := by
    simp [sourceValue_pop, stackMove]
  refine ⟨t, completes, fun q => ?_, ?_, memory⟩
  · simpa [popped, State.resolve] using registers q
  · simpa [State.resolve, stackMove] using sp

/-- SET PUSH, r in an armed state stores the register below SP (R131). -/
theorem exec_set_push_reg (r : Reg) {s : State} (armed : s.skip = false) :
    ∃ t, exec (.set .push (.reg r)) s = .next t ∧ (∀ q, t.getReg q = s.getReg q) ∧
      (∀ x, t.readMem x = if x = s.sp - 1 then s.getReg r else s.readMem x) ∧ t.sp = s.sp - 1 ∧ t.skip = false := by
  obtain ⟨t, completes, registers, memory, sp, -, -, skip⟩ := exec_set_armed .push (.reg r) armed
  refine ⟨t, completes, registers, fun x => ?_, ?_, skip⟩
  · simpa [sourceValue_reg, State.resolve, eq_comm] using memory x
  · simpa [State.resolve, stackMove, BitVec.sub_eq_add_neg] using sp

/-- Settles O43: what the push stores below SP (`exec_set_push_reg`) is what the pop finds there (`exec_set_reg_pop`).
-/
theorem pushThenPopRoundTrips : Obligations.PushThenPopRoundTrips := by
  intro r s armed
  obtain ⟨t, pushes, kept, stored, sp, armedAfter⟩ := exec_set_push_reg r armed
  have atSp : t.readMem (s.sp - 1) = s.getReg r := by rw [stored, if_pos rfl]
  refine ⟨t, pushes, sp, atSp, fun p => ?_⟩
  obtain ⟨u, pops, registers, spBack, memory⟩ := exec_set_reg_pop r (s := t.setPc p) armedAfter
  refine ⟨u, pops, fun q => ?_, ?_, fun x => ?_⟩
  · rw [registers, setPc_readMem, setPc_sp, setPc_getReg, sp, atSp, kept]
    split
    · next same => rw [same]
    · rfl
  · rw [spBack, setPc_sp, sp, BitVec.sub_add_cancel]
  · rw [memory, setPc_readMem, stored]

/-- SET PC, POP in an armed state jumps to the word at SP and moves SP up (R204). -/
theorem exec_set_pc_pop {s : State} (armed : s.skip = false) :
    ∃ t, exec (.set .pc .pop) s = .next t ∧ t.pc = s.readMem s.sp ∧ t.sp = s.sp + 1 ∧
      ∀ q, t.getReg q = s.getReg q := by
  obtain ⟨t, completes, registers, -, sp, pc, -⟩ := exec_set_armed .pc .pop armed
  refine ⟨t, completes, ?_, ?_, registers⟩
  · simpa [sourceValue_pop, State.resolve, stackMove] using pc
  · simpa [State.resolve, stackMove] using sp

/-- Settles O44: the word JSR pushes is the one at SP when SET PC, POP runs (`exec_set_pc_pop`). -/
theorem callThenReturnComesBack : Obligations.CallThenReturnComesBack := by
  intro b s armed
  obtain ⟨t, calls, -, sp, resolvedSp, memory, registers, -, armedAfter⟩ := jsrPushesReturnAddressAndJumps b s armed
  refine ⟨t, calls, fun p => ?_⟩
  obtain ⟨u, returns, pc, spBack, kept⟩ := exec_set_pc_pop (s := t.setPc p) armedAfter
  refine ⟨u, returns, ?_, ?_, fun q => ?_⟩
  · rw [pc, setPc_readMem, setPc_sp, sp, memory, if_pos rfl]
  · rw [spBack, setPc_sp, sp, BitVec.sub_add_cancel, resolvedSp]
  · rw [kept, setPc_getReg, registers]

/-- Settles O45: PUSH and POP name the same word and undo each other's move of SP, so the word is written back where
it stands (`writeMem_readMem_self`). -/
theorem setPushPopOnlyClearsO : Obligations.SetPushPopOnlyClearsO := by
  intro s armed canonical
  have resolved : (resolveBoth .push .pop s).after = s := by
    have pc : s.pc + nextWords .push + nextWords .pop = s.pc := by simp [nextWords]
    have sp : s.sp + stackMove .push + stackMove .pop = s.sp := neg_add_cancel_right s.sp 1
    rw [resolveBoth_after, pc, sp, ← armed]
    rfl
  have popped : (resolveBoth .push .pop s).sourceValue = s.readMem (s.sp - 1) := by
    rw [sourceValue_pop, stackMove, BitVec.sub_eq_add_neg]
  have dest : (resolveBoth .push .pop s).dest = .mem (s.sp - 1) := rfl
  have completes := resultStep_eq .push .pop s aluSet
  rw [armed, if_neg Bool.false_ne_true, resolved, popped, dest] at completes
  refine completes.trans (congrArg Host.Outcome.next ?_)
  have sameMemory := writeMem_readMem_self canonical (s.sp - 1)
  exact congrArg (fun t => t.setO 0) sameMemory

/-- Settles O46: both next words are read while the operands are resolved, before the one store. -/
theorem setNextMemNextLitReadsItsWordsBeforeItStores : Obligations.SetNextMemNextLitReadsItsWordsBeforeItStores := by
  intro s armed word
  have next : IsNext (.set .nextMem .nextLit) s := by
    rw [IsNext, word]
    rfl
  obtain ⟨t, completes, -, memory, -, pc, -⟩ :=
    exec_set_armed .nextMem .nextLit (s := s.setPc (s.pc + 1)) armed
  refine ⟨t, (step_of_isNext next).trans completes, ?_, fun x => ?_⟩
  · rw [pc]
    simp [State.resolve, nextWords, add_assoc]
  · rw [memory, sourceValue_nextLit]
    simp [State.resolve, nextWords, add_assoc, eq_comm]

/-- Settles O47: the destination is read on the state after both operands are resolved, so SP is the moved one and PC
the address after the whole instruction. -/
theorem addSpPopAndAddPcNextReadDestinationLastAndSubPcOneLoops :
    Obligations.AddSpPopAndAddPcNextReadDestinationLastAndSubPcOneLoops := by
  intro s armed
  refine ⟨?addSp, ?addPc, fun word => ?subPc⟩
  case addSp =>
    obtain ⟨t, completes, -, -, sp, -⟩ := addWritesSumAndCarry .sp .pop s armed
    have moved : (resolveBoth .sp .pop s).destValue = s.sp + 1 := rfl
    refine ⟨t, completes, sp.trans ?_⟩
    simp [State.resolve, moved, sourceValue_pop, stackMove]
  case addPc =>
    obtain ⟨t, completes, -, -, -, pc, -⟩ := addWritesSumAndCarry .pc .nextLit s armed
    have moved : (resolveBoth .pc .nextLit s).destValue = s.pc + 1 := rfl
    refine ⟨t, completes, pc.trans ?_⟩
    simp [State.resolve, moved, sourceValue_nextLit, nextWords]
  case subPc =>
    have next : IsNext (.sub .pc (.smallLit 1)) s := by
      rw [IsNext, word]
      rfl
    obtain ⟨t, completes, -, -, -, pc, -⟩ :=
      subWritesDifferenceAndBorrow .pc (.smallLit 1) (s.setPc (s.pc + 1)) armed
    exact ⟨t, (step_of_isNext next).trans completes, pc.trans (BitVec.add_sub_cancel s.pc 1)⟩

end Sys2Proof.Claims
end
